-- ==== Sys2Proof/Word.lean ====
section
/-! DEFINITION. The widths of the spec's values (00_scope.md R6) and the access kinds of a command (30_encoding.md R64). -/

namespace Sys2Proof

/-- A 32-bit word: a PSW value, a slot word, a data operand (R6: `PSW_WIDTH`, `SLOT_WIDTH`). -/
abbrev Word := BitVec 32

/-- A virtual address (R6, R40: `VADDR_WIDTH` = 64). -/
abbrev VAddr := BitVec 64

/-- A physical address (R6, R41: `PADDR_WIDTH` = 32). -/
abbrev PAddr := BitVec 32

/-- A regime index, 0..15 (R65). -/
abbrev Regime := BitVec 4

/-- A command word (R60): 128 bits, bit 0 least significant. -/
abbrev Command := BitVec 128

/-- The access kinds of R64. `reserved` is code 3, which no operation accepts: a TRANSLATE or FILL that
carries it is refused (R66). -/
inductive AccessKind where
  | load
  | store
  | fetch
  | reserved
deriving DecidableEq, Repr

end Sys2Proof
end

