-- ==== Sys2Proof/Config.lean ====
section
/-! DEFINITION. The configuration the block is built with (00_scope.md R6, 10_state.md R28): the OPEN
parameters and the translator. No operation changes it. It is plain data, carried in State, so that every
statement holds for every configuration. -/

namespace Sys2Proof

/-- A permission set, a subset of Read, Write, Execute (R45). Its 3-bit code is in Machine/Operands.lean (R70). -/
structure Perms where
  read    : Bool
  write   : Bool
  execute : Bool
deriving DecidableEq, Repr

/-- The four failure kinds of a translation (R69, R98). They never carry a physical address (R83). -/
inductive FailKind where
  | badAddress
  | noMatch
  | invalid
  | dirty
deriving DecidableEq, Repr

/-- The outcome of a translation (R69, R83): a Match with its physical address and permissions, or one failure kind. -/
inductive TransOutcome where
  | matched (pa : PAddr) (perms : Perms)
  | fail (kind : FailKind)
deriving DecidableEq, Repr

/-- The configured translation function as plain data (R28). Its reading as a function is
`Machine.Translator.apply` (Machine/Ops.lean), and every function of an address, a kind and a regime is the
reading of some value of this type (Laws/Translator.lean, `translator_expresses_every_function`).
DESIGN CHOICE, safe (log 2): the spec asks for a function, and State holds no function. -/
inductive Translator where
  /-- The hardware's policy (R80). -/
  | identity
  /-- The identity address map granting only `perms` (a test configuration, as vector V28 uses). -/
  | identityWith (perms : Perms)
  /-- One outcome for every input (a test configuration, as vectors V25 to V27 use). -/
  | always (out : TransOutcome)
  /-- `out` for exactly this address, kind and regime, and `rest` for every other input. -/
  | override (va : VAddr) (kind : AccessKind) (regime : Regime) (out : TransOutcome) (rest : Translator)
deriving DecidableEq, Repr

/-- The parameters of R6 that the spec leaves OPEN, and the translator. -/
structure Config where
  /-- `PAGE_BITS`, OPEN (R6, R43): the page size is two to this power. -/
  pageBits   : Nat
  /-- `NUM_REGIMES`, OPEN (R6, R65): no operation reads it, since the block accepts every regime index. -/
  numRegimes : Nat
  /-- `PSW_RESET`, OPEN (R6, R160). -/
  pswReset   : Word
  /-- `Translator` (R6, R28). -/
  translator : Translator
deriving DecidableEq, Repr

/-- The only bound R6 puts on a parameter: 1 ≤ `NUM_REGIMES` ≤ 16. -/
def Config.wf (c : Config) : Bool := decide (1 ≤ c.numRegimes) && decide (c.numRegimes ≤ 16)

/-- The page size in bytes, `PAGE_SIZE` (R6, R43). -/
def Config.pageSize (c : Config) : Nat := 2 ^ c.pageBits

/-- The configuration of the one `State.reset`: the hardware's identity translator, with the values under
which 95_test_vectors.md writes its vectors for the OPEN parameters.
DESIGN CHOICE, unsafe (log 1): the spec gives no value for `PAGE_BITS`, `NUM_REGIMES` and `PSW_RESET`. -/
def Config.reference : Config :=
  { pageBits := 14, numRegimes := 16, pswReset := 0x00000000#32, translator := .identity }

end Sys2Proof
end

