-- ==== Sys2Proof/Syntax.lean ====
section
/-! DEFINITION. The nine operations of the block as data, one constructor per row of the opcode table
(30_encoding.md R63), with the operands R61 and R62 give each; and the reasons R66 refuses a command for. -/

namespace Sys2Proof

/-- One operation with its operands. An operand is exactly a field of the command word that the operation uses
(R61); the fields it does not use have no place here, because their values are ignored (R66). -/
inductive Instr where
  /-- TRANSLATE (R81). -/
  | translate (vaddr : VAddr) (kind : AccessKind) (regime : Regime)
  /-- FILL (R90). -/
  | fill (vaddr : VAddr) (size : BitVec 16) (kind : AccessKind) (regime : Regime) (probe : Bool)
  /-- PSW_READ (R110). -/
  | pswRead
  /-- PSW_WRITE (R111). -/
  | pswWrite (data : Word)
  /-- FPU_SYNC (R131). -/
  | fpuSync
  /-- SLOT_READ (R113). -/
  | slotRead (slot : Fin 8)
  /-- SLOT_WRITE (R114). -/
  | slotWrite (slot : Fin 8) (data : Word)
  /-- RAW_WRITE (R115). -/
  | rawWrite (data : Word)
  /-- FPCTX_READ (R132). -/
  | fpctxRead
deriving DecidableEq, Repr

/-- Why a command is refused (R66). -/
inductive IllegalCommand where
  /-- `op` is 0x9 to 0xF. -/
  | reservedOp (op : BitVec 4)
  /-- `rsv` is not 0. -/
  | reservedBits (rsv : BitVec 2)
  /-- `op` is TRANSLATE or FILL and `kind` is 3. -/
  | reservedKind
deriving DecidableEq, Repr

end Sys2Proof
end

