-- ==== Sys2Proof/Machine/State.lean ====
section
/-! DEFINITION. The state of the block (10_state.md), its interface to the client and to the translation cache,
the reasons a step stops, and the state after reset (70_reset_and_hazards.md R160, R161). -/

namespace Sys2Proof.Machine

/-- The four rounding modes (R26, R27). -/
inductive RoundingMode where
  | nearestEven
  | up
  | down
  | towardZero
deriving DecidableEq, Repr

/-- The floating-point context register `FpCtx` (R26). -/
structure FpCtx where
  /-- `FpCtx.rm`, the rounding mode. -/
  rm  : RoundingMode
  /-- `FpCtx.fiz`, flush inputs to zero. -/
  fiz : Bool
  /-- `FpCtx.ftz`, flush to zero. -/
  ftz : Bool
  /-- `FpCtx.dn`, default NaN. -/
  dn  : Bool
deriving DecidableEq, Repr

/-- The registration transaction of a FILL that matched (R74, R93). -/
structure Registration where
  vpage   : VAddr
  ppage   : PAddr
  perms   : Perms
  regime  : Regime
  granule : Nat
deriving DecidableEq, Repr

/-- The response of a completed operation (R71). -/
inductive Response where
  /-- TRANSLATE: the outcome as data. -/
  | outcome (out : TransOutcome)
  /-- FILL: `true` on Match, `false` on a probe failure. -/
  | filled (ok : Bool)
  /-- PSW_READ: the 32-bit PSW value. -/
  | psw (value : Word)
  /-- SLOT_READ: the 32-bit slot word. -/
  | slot (word : Word)
  /-- FPCTX_READ: the 5-bit code of R72. -/
  | fpCode (code : BitVec 5)
  /-- PSW_WRITE, FPU_SYNC, SLOT_WRITE, RAW_WRITE: completion only. -/
  | done
deriving DecidableEq, Repr

/-- The MMU fault descriptor (R73). Its `kind` is sent as the outcome code `FailKind.code` (R69). -/
structure FaultDescriptor where
  address : VAddr
  rw      : BitVec 1
  kind    : FailKind
deriving DecidableEq, Repr

/-- The one exception of the block (R140). -/
inductive Fault where
  /-- Raised by FILL alone, when the translation fails and `probe` is 0 (R96, R140). The run ends here: the spec makes
  this a fault state that is never final and that no later operation clears (R142, U1). Safe (log 6). -/
  | mmuFault (desc : FaultDescriptor)
deriving DecidableEq, Repr

/-- The ways a command has no effect at all. -/
inductive Refusal where
  /-- An instruction that `exec` rejects by name because the model gives it no meaning yet. No arm answers it. Safe. -/
  | notModelled (mnemonic : String)
  /-- The command spells no operation of the block (R10, R66): answered by the step for a word the decoder refuses,
  and by TRANSLATE and FILL for the reserved access kind. Safe (log 7). -/
  | illegalCommand (why : IllegalCommand)
deriving DecidableEq, Repr

/-- The state of one instance of the block (R30, R32), its interface, and its configuration. -/
structure State where
  /-- `PSW_RAW`, the stored PSW word (R21). -/
  pswRaw        : Word
  /-- `USB[0..7]`, the status bit cache (R22). -/
  usb           : Vector Word 8
  /-- `FpCtx` (R26). -/
  fp            : FpCtx
  /-- The registration transactions issued to the external translation cache, oldest first (R74, R93; log 5). -/
  registrations : List Registration
  /-- The response of the last completed operation (R10, R71). The model's own field (log 4). -/
  response      : Option Response
  /-- The commands the client has handed over, next first (R60). The model's own field (log 3). -/
  commands      : List Command
  /-- The configuration, which no operation changes (R28). -/
  cfg           : Config
deriving DecidableEq, Repr

/-- The word of slot `i` after reset, from the table of R160: slots 0 to 6 are 0x80000000 or 0, slot 7 is
`PSW_RESET & 0x80000000`. -/
def resetSlot (c : Config) (i : Nat) : Word :=
  if i = 7 then c.pswReset &&& 0x80000000#32
  else if c.pswReset.getLsbD (24 + i) then 0x80000000#32 else 0#32

/-- The rounding mode after reset: the mode coded by `PSW_RESET[25:24]` (R160, R27). -/
def resetRoundingMode (c : Config) : RoundingMode :=
  match c.pswReset.getLsbD 25, c.pswReset.getLsbD 24 with
  | false, false => .nearestEven
  | false, true => .up
  | true, false => .down
  | true, true => .towardZero

/-- The block right after reset, built with the configuration `c` (R160, R161): the argument form, since the spec leaves
`PSW_RESET` OPEN. -/
def State.resetWith (c : Config) : State where
  pswRaw := c.pswReset
  usb := #v[resetSlot c 0, resetSlot c 1, resetSlot c 2, resetSlot c 3,
            resetSlot c 4, resetSlot c 5, resetSlot c 6, resetSlot c 7]
  fp := { rm := resetRoundingMode c, fiz := true, ftz := true, dn := true }
  registrations := []
  response := none
  commands := []
  cfg := c

/-- The block right after reset, with the reference values of the OPEN parameters.
DESIGN CHOICE, unsafe (log 1): a claim about this one state, rather than `resetWith c` for every `c`, rests on them. -/
def State.reset : State := State.resetWith Config.reference

end Sys2Proof.Machine
end

