-- ==== Sys2Proof/Machine/Flags.lean ====
section
/-! DEFINITION. The flag computations of the status bit cache (42_psw.md R110 to R112, 10_state.md R23) and the derivation
of the FP context (43_fpu_sync.md R130), as functions of plain words. -/

namespace Sys2Proof.Machine

/-- The logical flag a slot word holds (R23): the sign bit for slots 0 to 6, nonzero-ness for slot 7 (C2). -/
def slotFlag (i : Fin 8) (word : Word) : Bool := if i = 7 then word != 0 else word.msb

/-- The flag of slot `i` at its place in the PSW, `zext_32(flag) << (24 + i)` (R110). -/
def flagAtPlace (usb : Vector Word 8) (i : Fin 8) : Word :=
  (BitVec.ofBool (slotFlag i usb[i])).setWidth 32 <<< (24 + i.val)

/-- The pack of PSW_READ (R110): the stored low 24 bits, then bit 31 from slot 7, then bits 24 to 30 from slots 0 to 6. -/
def packPsw (raw : Word) (usb : Vector Word 8) : Word :=
  [7, 0, 1, 2, 3, 4, 5, 6].foldl (fun r i => r ||| flagAtPlace usb i) (raw &&& 0x00FFFFFF#32)

/-- The expansion of slots 0 to 6, `(data & (1 << (24+i))) << (7-i)` (R112; the shift as corrected by C1). -/
def expandSlot (data : Word) (i : Nat) : Word := (data &&& (1#32 <<< (24 + i))) <<< (7 - i)

/-- The unpack of PSW_WRITE (R111): slots 0 to 6 expanded, slot 7 masked to bit 31. -/
def unpackPsw (data : Word) : Vector Word 8 :=
  #v[expandSlot data 0, expandSlot data 1, expandSlot data 2, expandSlot data 3,
     expandSlot data 4, expandSlot data 5, expandSlot data 6, data &&& 0x80000000#32]

/-- The rounding mode a 2-bit code selects (R27, R130). -/
def roundingOfCode (c : BitVec 2) : RoundingMode :=
  match c.getLsbD 1, c.getLsbD 0 with
  | false, false => .nearestEven
  | false, true => .up
  | true, false => .down
  | true, true => .towardZero

/-- The FP context `FpuSync()` derives from the stored PSW word (R130): the mode of bits 25:24, and the three policy flags
set on every call. -/
def fpCtxOf (raw : Word) : FpCtx :=
  { rm := roundingOfCode (raw.extractLsb' 24 2), fiz := true, ftz := true, dn := true }

end Sys2Proof.Machine
end

