-- ==== Sys2Proof/WellFormed.lean ====
section
/-! DEFINITION. Which terms of `Instr` are commands of the block: the access kind of a TRANSLATE or FILL is not
the reserved code 3 (30_encoding.md R64, R66). Every other operand fills its field (R61), at every value. -/

namespace Sys2Proof

/-- An access kind that a command may carry (R64, R66). -/
def AccessKind.legal : AccessKind → Bool
  | .load => true
  | .store => true
  | .fetch => true
  | .reserved => false

/-- The well-formedness check of an instruction (R66). -/
def Instr.wellFormed : Instr → Bool
  | .translate _ kind _ => kind.legal
  | .fill _ _ kind _ _ => kind.legal
  | .pswRead => true
  | .pswWrite _ => true
  | .fpuSync => true
  | .slotRead _ => true
  | .slotWrite _ _ => true
  | .rawWrite _ => true
  | .fpctxRead => true

end Sys2Proof
end

