-- ==== Sys2Proof/Decode.lean ====
section
/-! DEFINITION. The decoder and the encoder of the 128-bit command word (30_encoding.md R60 to R67). The decoder is
total: a word either decodes to an instruction or is refused with a reason of R66. -/

namespace Sys2Proof

/-- `op`, bits 3:0 (R61). -/
def Command.op (c : Command) : BitVec 4 := c.extractLsb' 0 4

/-- `kind`, bits 5:4 (R61). -/
def Command.kind (c : Command) : BitVec 2 := c.extractLsb' 4 2

/-- `regime`, bits 9:6 (R61). -/
def Command.regime (c : Command) : BitVec 4 := c.extractLsb' 6 4

/-- `probe`, bit 10 (R61). -/
def Command.probe (c : Command) : BitVec 1 := c.extractLsb' 10 1

/-- `slot`, bits 13:11 (R61). -/
def Command.slot (c : Command) : BitVec 3 := c.extractLsb' 11 3

/-- `rsv`, bits 15:14 (R61). -/
def Command.rsv (c : Command) : BitVec 2 := c.extractLsb' 14 2

/-- `size`, bits 31:16 (R61). -/
def Command.size (c : Command) : BitVec 16 := c.extractLsb' 16 16

/-- `data`, bits 63:32 (R61). -/
def Command.data (c : Command) : Word := c.extractLsb' 32 32

/-- `vaddr`, bits 127:64 (R61). -/
def Command.vaddr (c : Command) : VAddr := c.extractLsb' 64 64

/-- The code of an access kind (R64). -/
def AccessKind.code : AccessKind → BitVec 2
  | .load => 0
  | .store => 1
  | .fetch => 2
  | .reserved => 3

/-- The access kind a code stands for (R64). -/
def AccessKind.ofCode (c : BitVec 2) : AccessKind :=
  if c = 0 then .load else if c = 1 then .store else if c = 2 then .fetch else .reserved

/-- The slot index a `slot` field selects (R62). -/
def slotOfField (f : BitVec 3) : Fin 8 := f.toFin

/-- A TRANSLATE or FILL is refused when its kind is the reserved code (R66). -/
def requireLegalKind (i : Instr) : Except IllegalCommand Instr :=
  if i.wellFormed then .ok i else .error .reservedKind

/-- The operation map of R63 with the operand fields of R61; op 0x9 to 0xF is reserved (R66). -/
def decodeOp (c : Command) : Except IllegalCommand Instr :=
  match c.op.toNat with
  | 0x0 => requireLegalKind (.translate c.vaddr (.ofCode c.kind) c.regime)
  | 0x1 => requireLegalKind (.fill c.vaddr c.size (.ofCode c.kind) c.regime (c.probe == 1))
  | 0x2 => .ok .pswRead
  | 0x3 => .ok (.pswWrite c.data)
  | 0x4 => .ok .fpuSync
  | 0x5 => .ok (.slotRead (slotOfField c.slot))
  | 0x6 => .ok (.slotWrite (slotOfField c.slot) c.data)
  | 0x7 => .ok (.rawWrite c.data)
  | 0x8 => .ok .fpctxRead
  | _ => .error (.reservedOp c.op)

/-- The decoder (R61 to R67). Where several grounds of R66 hold at once the reserved bits are named first: the spec
gives no order, and the outcome is the same. DESIGN CHOICE, safe (log 7). -/
def decode (c : Command) : Except IllegalCommand Instr :=
  if c.rsv = 0 then decodeOp c else .error (.reservedBits c.rsv)

/-- `c = {vaddr, data, size, rsv, slot, probe, regime, kind, op}` (R61). -/
def commandWord (vaddr : VAddr) (data : Word) (size : BitVec 16) (rsv : BitVec 2) (slot : BitVec 3)
    (probe : BitVec 1) (regime : BitVec 4) (kind : BitVec 2) (op : BitVec 4) : Command :=
  vaddr ++ data ++ size ++ rsv ++ slot ++ probe ++ regime ++ kind ++ op

/-- The `slot` field of a slot index (R62). -/
def fieldOfSlot (k : Fin 8) : BitVec 3 := BitVec.ofFin k

/-- The encoder (R61, R63): a field the operation does not use is 0, as in the assembler (R75). -/
def encode : Instr → Command
  | .translate vaddr kind regime => commandWord vaddr 0 0 0 0 0 regime kind.code 0x0
  | .fill vaddr size kind regime probe => commandWord vaddr 0 size 0 0 (BitVec.ofBool probe) regime kind.code 0x1
  | .pswRead => commandWord 0 0 0 0 0 0 0 0 0x2
  | .pswWrite data => commandWord 0 data 0 0 0 0 0 0 0x3
  | .fpuSync => commandWord 0 0 0 0 0 0 0 0 0x4
  | .slotRead slot => commandWord 0 0 0 0 (fieldOfSlot slot) 0 0 0 0x5
  | .slotWrite slot data => commandWord 0 data 0 0 (fieldOfSlot slot) 0 0 0 0x6
  | .rawWrite data => commandWord 0 data 0 0 0 0 0 0 0x7
  | .fpctxRead => commandWord 0 0 0 0 0 0 0 0 0x8

/-- The bits of a command word that an instruction's operation uses, from the "used by" column of R61, with the reserved bits,
which must be 0: two words that agree on them are the same command (R66). -/
def usedBits : Instr → Command
  | .translate _ _ _ => 0xFFFFFFFFFFFFFFFF_00000000_0000C3FF#128
  | .fill _ _ _ _ _ => 0xFFFFFFFFFFFFFFFF_00000000_FFFFC7FF#128
  | .pswRead => 0xC00F#128
  | .pswWrite _ => 0xFFFFFFFF_0000C00F#128
  | .fpuSync => 0xC00F#128
  | .slotRead _ => 0xF80F#128
  | .slotWrite _ _ => 0xFFFFFFFF_0000F80F#128
  | .rawWrite _ => 0xFFFFFFFF_0000C00F#128
  | .fpctxRead => 0xC00F#128

/-- The command word whose low `nbits` bits are those of `w` and whose other bits are 0. The table numbers bits as
R7 and R61 do, and a command is one word, so no byte order enters (R48; log 11). -/
def commandOfTableWord (nbits w : Nat) : Command := BitVec.ofNat 128 (w % 2 ^ nbits)

/-- The instruction the decoder reads from a table word. -/
def decodeTableWord (nbits w : Nat) : Option Instr := (decode (commandOfTableWord nbits w)).toOption

end Sys2Proof
end

