-- ==== Sys2Proof/Machine/Operands.lean ====
section
/-! DEFINITION. The codes the operations take and produce (30_encoding.md R68 to R74) and the address arithmetic of a
FILL (20_memory.md R43). -/

namespace Sys2Proof.Machine

/-- The read/write discriminant of an access kind, `rw = kind[0]` (R68, R91): Load and Fetch are Read (0), Store is
Write (1). -/
def normaliseKind (k : AccessKind) : BitVec 1 := k.code.extractLsb' 0 1

/-- The discriminant in the code space of `kind`, as FILL passes it to the translator (R68, R92). -/
def kindOfDiscriminant (rw : BitVec 1) : AccessKind := AccessKind.ofCode (rw.setWidth 2)

/-- The outcome code of a failure kind, 32-bit two's complement (R69). -/
def failCode : FailKind → Word
  | .badAddress => BitVec.ofInt 32 (-1)
  | .noMatch => BitVec.ofInt 32 (-2)
  | .invalid => BitVec.ofInt 32 (-3)
  | .dirty => BitVec.ofInt 32 (-4)

/-- The outcome code of a translation (R69). -/
def outcomeCode : TransOutcome → Word
  | .matched _ _ => 0
  | .fail k => failCode k

/-- The permission-set code (R70): bit 0 Read, bit 1 Write, bit 2 Execute. -/
def permsCode (p : Perms) : BitVec 3 := BitVec.ofBool p.execute ++ BitVec.ofBool p.write ++ BitVec.ofBool p.read

/-- The full permission set, code 0b111 (R70, R80). -/
def fullPerms : Perms := { read := true, write := true, execute := true }

/-- A permission set widened to include Execute, `perms | 0b100` on its code (R93). -/
def widenPerms (p : Perms) : Perms := { p with execute := true }

/-- `PageAlign_W(a) = a & ~zext_W(PAGE_SIZE - 1)` (R43). Where `PAGE_BITS` reaches `W`, every bit is cleared, as the rule's
second sentence says ("clears bits `PAGE_BITS-1:0`"). DEDUCED (log 10). -/
def pageAlign (c : Config) {w : Nat} (a : BitVec w) : BitVec w := a &&& ~~~(BitVec.ofNat w (c.pageSize - 1))

/-- The 2-bit code of a rounding mode (R27). -/
def roundingCode : RoundingMode → BitVec 2
  | .nearestEven => 0b00
  | .up => 0b01
  | .down => 0b10
  | .towardZero => 0b11

/-- The FP context code `{dn, ftz, fiz, rm}` (R72, R132). -/
def fpCtxCode (f : FpCtx) : BitVec 5 :=
  BitVec.ofBool f.dn ++ BitVec.ofBool f.ftz ++ BitVec.ofBool f.fiz ++ roundingCode f.rm

end Sys2Proof.Machine
end

