-- ==== Sys2Proof/Machine/Ops.lean ====
section
/-! DEFINITION. The named operations the meanings are written over: the translator, the writes of the three register
elements, the registration, the response, taking the MMU fault, and taking a command from the client.

The block has no return from a fault (60_exceptions.md R147), so no such operation stands beside `raiseMmuFault`. -/

namespace Sys2Proof.Machine

/-- The configured translation function (R80, R28). `identity` is the hardware's policy: the low 32 bits of the address,
all three permissions, unconditionally; it reads neither the kind nor the regime. -/
def Translator.apply : Translator → VAddr → AccessKind → Regime → TransOutcome
  | .identity, va, _, _ => .matched (va.extractLsb' 0 32) fullPerms
  | .identityWith perms, va, _, _ => .matched (va.extractLsb' 0 32) perms
  | .always out, _, _, _ => out
  | .override va' kind' regime' out rest, va, kind, regime =>
    if va = va' ∧ kind = kind' ∧ regime = regime' then out else Translator.apply rest va kind regime

/-- The translation of the state's own configuration (R44). -/
def State.translate (s : State) (va : VAddr) (kind : AccessKind) (regime : Regime) : TransOutcome :=
  Translator.apply s.cfg.translator va kind regime

/-- The translation step of a FILL: the discriminant of R91 passed as the kind (R92). -/
def State.fillOutcome (s : State) (va : VAddr) (kind : AccessKind) (regime : Regime) : TransOutcome :=
  s.translate va (kindOfDiscriminant (normaliseKind kind)) regime

/-- An operation that ends Ok leaves its response (R10, R71). -/
def State.respond (s : State) (r : Response) : State := { s with response := some r }

/-- `PSW_RAW <- data` (R111, R115). -/
def State.setRaw (s : State) (data : Word) : State := { s with pswRaw := data }

/-- `USB <- usb`, all eight slots (R111). -/
def State.setSlots (s : State) (usb : Vector Word 8) : State := { s with usb := usb }

/-- `USB[slot] <- data` (R114). -/
def State.setSlot (s : State) (slot : Fin 8) (data : Word) : State := { s with usb := s.usb.set slot data }

/-- `FpuSync()` (R130): the FP context from the stored word `PSW_RAW`, never from the slots (D19). -/
def State.syncFp (s : State) : State := { s with fp := fpCtxOf s.pswRaw }

/-- The transaction of R93 for a FILL that matched with `pa` and `perms`. -/
def State.registrationFor (s : State) (va : VAddr) (regime : Regime) (pa : PAddr) (perms : Perms) : Registration :=
  { vpage := pageAlign s.cfg va, ppage := pageAlign s.cfg pa, perms := widenPerms perms,
    regime := regime, granule := s.cfg.pageSize }

/-- `RegisterMapping` (R9, R93): one transaction to the external translation cache. -/
def State.register (s : State) (m : Registration) : State := { s with registrations := s.registrations ++ [m] }

/-- The descriptor of a FILL's failure: the unmasked address, the discriminant, the failure kind (R73, R96). -/
def faultDescriptor (va : VAddr) (kind : AccessKind) (k : FailKind) : FaultDescriptor :=
  { address := va, rw := normaliseKind kind, kind := k }

/-- Taking the one exception, `raise MmuFault(desc)` (R141): the operation ends without a response or a registration, and
the descriptor goes to the dispatch loop. No guest register, vector, cause or mode change is specified, and no step
follows (R142; log 6). -/
def raiseMmuFault (desc : FaultDescriptor) : Host.Outcome State Fault Refusal := .fault (.mmuFault desc)

/-- A refused command (R10, R66): no state change, no response, no registration, no fault. -/
def refuseCommand (why : IllegalCommand) : Host.Outcome State Fault Refusal := .refused (.illegalCommand why)

/-- Taking the next command from the client (R60): the word, and the state with it taken; none when the client has
handed over none. -/
def State.takeCommand (s : State) : Option (Command × State) :=
  match s.commands with
  | [] => none
  | c :: rest => some (c, { s with commands := rest })

/-- Putting a word where `takeCommand` reads next: in the place of the next command, or as the only one. -/
def State.placeCommand (s : State) (c : Command) : State := { s with commands := c :: s.commands.tail }

end Sys2Proof.Machine
end

