-- ==== Sys2Proof/Machine/Fill.lean ====
section
/-! DEFINITION. The meaning of FILL (41_tlb_fill.md). -/

namespace Sys2Proof.Machine

/-- FILL (R90 to R96). `_size` is carried and read by no step (R50). -/
def execFill (vaddr : VAddr) (_size : BitVec 16) (kind : AccessKind) (regime : Regime) (probe : Bool) (s : State) :
    Host.Outcome State Fault Refusal :=
  if kind = .reserved then refuseCommand .reservedKind
  else
    match s.fillOutcome vaddr kind regime with
    | .matched pa perms =>
      .next ((s.register (s.registrationFor vaddr regime pa perms)).respond (.filled true))
    | .fail k =>
      if probe then .next (s.respond (.filled false))
      else raiseMmuFault (faultDescriptor vaddr kind k)

end Sys2Proof.Machine
end

