-- ==== Sys2Proof/Machine/Fpu.lean ====
section
/-! DEFINITION. The meanings of the FP mode operations (43_fpu_sync.md). -/

namespace Sys2Proof.Machine

/-- FPU_SYNC (R131). -/
def execFpuSync (s : State) : Host.Outcome State Fault Refusal := .next (s.syncFp.respond .done)

/-- FPCTX_READ (R132). -/
def execFpctxRead (s : State) : Host.Outcome State Fault Refusal := .next (s.respond (.fpCode (fpCtxCode s.fp)))

end Sys2Proof.Machine
end

