-- ==== Sys2Proof/Machine/Psw.lean ====
section
/-! DEFINITION. The meanings of the status bit cache's operations (42_psw.md). -/

namespace Sys2Proof.Machine

/-- PSW_READ (R110). -/
def execPswRead (s : State) : Host.Outcome State Fault Refusal := .next (s.respond (.psw (packPsw s.pswRaw s.usb)))

/-- PSW_WRITE (R111): the slots, then the stored word, then the FP synchronisation from the stored word. -/
def execPswWrite (data : Word) (s : State) : Host.Outcome State Fault Refusal :=
  .next (((s.setSlots (unpackPsw data)).setRaw data).syncFp.respond .done)

/-- SLOT_READ (R113): the word as stored. -/
def execSlotRead (slot : Fin 8) (s : State) : Host.Outcome State Fault Refusal := .next (s.respond (.slot s.usb[slot]))

/-- SLOT_WRITE (R114): the slot alone, with no FP synchronisation. -/
def execSlotWrite (slot : Fin 8) (data : Word) (s : State) : Host.Outcome State Fault Refusal :=
  .next ((s.setSlot slot data).respond .done)

/-- RAW_WRITE (R115): the stored word alone, with no FP synchronisation. -/
def execRawWrite (data : Word) (s : State) : Host.Outcome State Fault Refusal := .next ((s.setRaw data).respond .done)

end Sys2Proof.Machine
end

