-- ==== Sys2Proof/Machine/Translate.lean ====
section
/-! DEFINITION. The meaning of TRANSLATE (40_translate.md). -/

namespace Sys2Proof.Machine

/-- TRANSLATE (R81): a failure outcome is returned as data, never raised. -/
def execTranslate (vaddr : VAddr) (kind : AccessKind) (regime : Regime) (s : State) :
    Host.Outcome State Fault Refusal :=
  if kind = .reserved then refuseCommand .reservedKind
  else .next (s.respond (.outcome (s.translate vaddr kind regime)))

end Sys2Proof.Machine
end

