-- ==== Sys2Proof/Machine/Dispatch.lean ====
section
/-! DEFINITION. What each operation does: one arm per row of the opcode table (30_encoding.md R63). -/

namespace Sys2Proof.Machine

def exec (i : Instr) (s : State) : Host.Outcome State Fault Refusal :=
  match i with
  | .translate vaddr kind regime => Sys2Proof.Machine.execTranslate vaddr kind regime s
  | .fill vaddr size kind regime probe => Sys2Proof.Machine.execFill vaddr size kind regime probe s
  | .pswRead => Sys2Proof.Machine.execPswRead s
  | .pswWrite data => Sys2Proof.Machine.execPswWrite data s
  | .fpuSync => Sys2Proof.Machine.execFpuSync s
  | .slotRead slot => Sys2Proof.Machine.execSlotRead slot s
  | .slotWrite slot data => Sys2Proof.Machine.execSlotWrite slot data s
  | .rawWrite data => Sys2Proof.Machine.execRawWrite data s
  | .fpctxRead => Sys2Proof.Machine.execFpctxRead s

end Sys2Proof.Machine
end

