-- ==== Sys2Proof/Machine/Step.lean ====
section
/-! DEFINITION. One step of the block: it takes the next command the client has handed over, decodes it, and runs it whole
(30_encoding.md R60, 20_memory.md R52, 70_reset_and_hazards.md R168). -/

namespace Sys2Proof.Machine

/-- One step. With no command handed over the block is idle and its state stays as it is: DESIGN CHOICE, safe (log 3).
A word that spells no operation is refused before any step of an operation (R66, R146). -/
def step (s : State) : Host.Outcome State Fault Refusal :=
  match s.takeCommand with
  | none => .next s
  | some (c, s') =>
    match decode c with
    | .ok i => exec i s'
    | .error why => refuseCommand why

/-- `s` with the table word `w` as the next command: the client handing over that command (log 3). -/
def State.withFetchWord (s : State) (nbits w : Nat) : State := s.placeCommand (commandOfTableWord nbits w)

end Sys2Proof.Machine
end

