-- ==== Sys2Proof/Machine/Asm.lean ====
section
/-! DEFINITION. The assembler syntax of the commands (30_encoding.md R75), from a line of characters to a command word. It is
notation only: no step reads it. -/

namespace Sys2Proof.Machine

/-- One operand of a line (R75): a number, `LOAD`, `STORE` or `FETCH`, `PROBE` or `NOPROBE`. -/
inductive AsmOperand where
  | number (n : Nat)
  | kind (k : AccessKind)
  | probe (b : Bool)
deriving DecidableEq, Repr

/-- A mnemonic and its operands in order (R75). -/
structure AsmLine where
  mnemonic : String
  operands : List AsmOperand
deriving DecidableEq, Repr

/-- The line of an instruction, with every operand its mnemonic takes, in the order of R75. -/
def asmLine : Instr → AsmLine
  | .translate vaddr kind regime => ⟨"TRANSLATE", [.number vaddr.toNat, .kind kind, .number regime.toNat]⟩
  | .fill vaddr size kind regime probe =>
    ⟨"FILL", [.number vaddr.toNat, .number size.toNat, .kind kind, .number regime.toNat, .probe probe]⟩
  | .pswRead => ⟨"PSW_READ", []⟩
  | .pswWrite data => ⟨"PSW_WRITE", [.number data.toNat]⟩
  | .fpuSync => ⟨"FPU_SYNC", []⟩
  | .slotRead slot => ⟨"SLOT_READ", [.number slot.val]⟩
  | .slotWrite slot data => ⟨"SLOT_WRITE", [.number slot.val, .number data.toNat]⟩
  | .rawWrite data => ⟨"RAW_WRITE", [.number data.toNat]⟩
  | .fpctxRead => ⟨"FPCTX_READ", []⟩

/-- A number operand for a field of `w` bits. One the line does not name is 0 (R75); one that does not fit its field is no
operand: DESIGN CHOICE, safe (log 12). -/
def numberOperand (w : Nat) : Option AsmOperand → Option (BitVec w)
  | none => some 0
  | some (.number n) => if n < 2 ^ w then some (BitVec.ofNat w n) else none
  | some (.kind _) => none
  | some (.probe _) => none

/-- A kind operand; one the line does not name is code 0 (R75). -/
def kindOperand : Option AsmOperand → Option AccessKind
  | none => some .load
  | some (.kind k) => if k.legal then some k else none
  | some (.number _) => none
  | some (.probe _) => none

/-- A probe operand; one the line does not name is 0 (R75). -/
def probeOperand : Option AsmOperand → Option Bool
  | none => some false
  | some (.probe b) => some b
  | some (.number _) => none
  | some (.kind _) => none

/-- The instruction a mnemonic and its operands spell; none for a mnemonic that R75 does not list, and for more operands
than the mnemonic takes. Operands may be left out at the end of a line: DESIGN CHOICE, safe (log 12). -/
def instrOfLine (l : AsmLine) : Option Instr :=
  let ops := l.operands
  if l.mnemonic = "TRANSLATE" ∧ ops.length ≤ 3 then do
    let vaddr ← numberOperand 64 ops[0]?
    let kind ← kindOperand ops[1]?
    let regime ← numberOperand 4 ops[2]?
    some (.translate vaddr kind regime)
  else if l.mnemonic = "FILL" ∧ ops.length ≤ 5 then do
    let vaddr ← numberOperand 64 ops[0]?
    let size ← numberOperand 16 ops[1]?
    let kind ← kindOperand ops[2]?
    let regime ← numberOperand 4 ops[3]?
    let probe ← probeOperand ops[4]?
    some (.fill vaddr size kind regime probe)
  else if l.mnemonic = "PSW_READ" ∧ ops.length ≤ 0 then some .pswRead
  else if l.mnemonic = "PSW_WRITE" ∧ ops.length ≤ 1 then do
    let data ← numberOperand 32 ops[0]?
    some (.pswWrite data)
  else if l.mnemonic = "FPU_SYNC" ∧ ops.length ≤ 0 then some .fpuSync
  else if l.mnemonic = "SLOT_READ" ∧ ops.length ≤ 1 then do
    let slot ← numberOperand 3 ops[0]?
    some (.slotRead (slotOfField slot))
  else if l.mnemonic = "SLOT_WRITE" ∧ ops.length ≤ 2 then do
    let slot ← numberOperand 3 ops[0]?
    let data ← numberOperand 32 ops[1]?
    some (.slotWrite (slotOfField slot) data)
  else if l.mnemonic = "RAW_WRITE" ∧ ops.length ≤ 1 then do
    let data ← numberOperand 32 ops[0]?
    some (.rawWrite data)
  else if l.mnemonic = "FPCTX_READ" ∧ ops.length ≤ 0 then some .fpctxRead
  else none

/-- The value of a digit below `base`, from 0 to 9 and then a to f in either case. R75 does not say the case: DESIGN CHOICE,
safe (log 12). -/
def digitValue (base : Nat) (ch : Char) : Option Nat :=
  let n := ch.toNat
  let v := if 48 ≤ n ∧ n ≤ 57 then n - 48 else if 97 ≤ n ∧ n ≤ 102 then n - 87
    else if 65 ≤ n ∧ n ≤ 70 then n - 55 else base
  if v < base then some v else none

/-- The number a nonempty list of digits spells in `base`. -/
def digitsValue (base : Nat) : List Char → Option Nat
  | [] => none
  | d :: ds => (d :: ds).foldl (fun acc ch => do
      let a ← acc
      let v ← digitValue base ch
      some (a * base + v)) (some 0)

/-- A number: decimal, or hexadecimal after `0x` (R75). -/
def numberOfChars : List Char → Option Nat
  | '0' :: 'x' :: ds => digitsValue 16 ds
  | ds => digitsValue 10 ds

/-- One operand from its characters (R75). -/
def operandOfChars (cs : List Char) : Option AsmOperand :=
  if cs = "LOAD".toList then some (.kind .load)
  else if cs = "STORE".toList then some (.kind .store)
  else if cs = "FETCH".toList then some (.kind .fetch)
  else if cs = "PROBE".toList then some (.probe true)
  else if cs = "NOPROBE".toList then some (.probe false)
  else (numberOfChars cs).map .number

/-- A piece without the blanks before and after it. A blank inside it stays, and then it spells no number and no name. R75 says
nothing of blanks: DESIGN CHOICE, safe (log 12). -/
def trimBlanks (cs : List Char) : List Char :=
  ((cs.dropWhile (· = ' ')).reverse.dropWhile (· = ' ')).reverse

/-- The pieces of a line between its commas (R75), blanks and all. -/
def commaPieces : List Char → List (List Char)
  | [] => [[]]
  | ch :: cs =>
    if ch = ',' then [] :: commaPieces cs
    else
      match commaPieces cs with
      | [] => [[ch]]
      | p :: ps => (ch :: p) :: ps

/-- A line of characters as a mnemonic and operands: the mnemonic up to the first blank, then the operands between commas
(R75). Blanks before the mnemonic, between it and the operands, and around an operand are ignored; one inside an operand makes
the line no command, and so does an empty operand. R75 says nothing of either: DESIGN CHOICE, safe (log 12). -/
def lineOfChars (cs : List Char) : Option AsmLine :=
  let body := cs.dropWhile (· = ' ')
  let mnemonic := body.takeWhile (· ≠ ' ')
  let rest := (body.dropWhile (· ≠ ' ')).dropWhile (· = ' ')
  if rest = [] then some ⟨String.ofList mnemonic, []⟩
  else ((commaPieces rest).mapM fun p => operandOfChars (trimBlanks p)).map fun ops => ⟨String.ofList mnemonic, ops⟩

/-- The command word of a line (R75): none where the line spells no command. -/
def assemble (line : String) : Option Command := do
  let l ← lineOfChars line.toList
  let i ← instrOfLine l
  some (encode i)

end Sys2Proof.Machine
end

