-- ==== Sys2Proof/Safety.lean ====
section
/-! DEFINITION. The terms the statements use: the hardware's configuration, what a sound registration is, the invariant every
step keeps, and what the slots hold between PSW writes. -/

namespace Sys2Proof.Machine

/-- The block built as the hardware is: the identity translator (R28, R80). The OPEN parameters stay arbitrary. -/
abbrev OnHardware (s : State) : Prop := s.cfg.translator = .identity

/-- The three policy flags are set: "a fixed architectural policy, not user-configurable" (R130). -/
abbrev PolicyFlagsSet (f : FpCtx) : Prop := f.fiz = true ∧ f.ftz = true ∧ f.dn = true

/-- A registration as R93 makes it under the configuration `c`: both pages aligned to the granule, Execute granted, the
granule the page size. -/
abbrev RegistrationSound (c : Config) (m : Registration) : Prop :=
  (∀ j, j < c.pageBits → m.vpage.getLsbD j = false ∧ m.ppage.getLsbD j = false) ∧
    m.perms.execute = true ∧ m.granule = 2 ^ c.pageBits

/-- A registration of the identity policy: the physical page is the low 32 bits of the virtual page, and all three
permissions are granted (R80, R93). -/
abbrev RegistrationIdentity (m : Registration) : Prop :=
  m.ppage = m.vpage.setWidth 32 ∧ m.perms = ⟨true, true, true⟩

/-- The invariant every step keeps: the FP policy flags, sound registrations, and on the hardware identity registrations. -/
abbrev MachineInv (s : State) : Prop :=
  PolicyFlagsSet s.fp ∧ (∀ m ∈ s.registrations, RegistrationSound s.cfg m) ∧
    (OnHardware s → ∀ m ∈ s.registrations, RegistrationIdentity m)

/-- The slots hold `v`: the sign bit of slot `i` is bit `24 + i` of `v` (R24). -/
abbrev SlotsHold (v : Word) (s : State) : Prop := ∀ i : Fin 8, (s.usb[i]).getLsbD 31 = v.getLsbD (24 + i.val)

/-- Whether a command is a SLOT_WRITE, the one operation that may break R24's invariant. -/
def isSlotWrite (c : Command) : Bool :=
  match decode c with
  | .ok (.slotWrite _ _) => true
  | _ => false

/-- The last value given to PSW_WRITE by the commands `cs`, `v` where they hold no PSW_WRITE (R24: "the last value given to
PSW_WRITE or reset"). -/
def lastWrittenPsw (v : Word) (cs : List Command) : Word :=
  cs.foldl (fun acc c =>
    match decode c with
    | .ok (.pswWrite d) => d
    | _ => acc) v

end Sys2Proof.Machine
end

