-- ==== Sys2Proof/Certificates/Slice0/Obligations.lean ====
section
/-! DEFINITION. The statements about the model, each from the numbered rules of spec/. Every one holds for every
configuration (`s.cfg`) unless it names the hardware's translator; none rests on a value of `Config.reference`. -/

open Sys2Proof Sys2Proof.Machine

-- ## Reset

/-- R160: reset has the effect of PSW_WRITE PSW_RESET, and leaves the values of the rule's table, for every PSW_RESET; the
invariant of R24 and the policy flags of R133 hold from reset. -/
def Obligations.ResetHasTheEffectOfPswWrite : Prop :=
  ∀ (c : Config) (s : State),
    (∃ t, exec (.pswWrite c.pswReset) s = .next t ∧ t.pswRaw = (State.resetWith c).pswRaw ∧
      t.usb = (State.resetWith c).usb ∧ t.fp = (State.resetWith c).fp) ∧
    (State.resetWith c).pswRaw = c.pswReset ∧
    (State.resetWith c).usb[7] = c.pswReset &&& 0x80000000#32 ∧
    (∀ i : Fin 8, i.val < 7 →
      (State.resetWith c).usb[i] = if c.pswReset.getLsbD (24 + i.val) then 0x80000000#32 else 0#32) ∧
    roundingCode (State.resetWith c).fp.rm = c.pswReset.extractLsb' 24 2 ∧
    PolicyFlagsSet (State.resetWith c).fp ∧
    SlotsHold c.pswReset (State.resetWith c) ∧
    (c.pswReset.extractLsb' 24 8 = 0#8 →
      (∀ i : Fin 8, (State.resetWith c).usb[i] = 0#32) ∧ (State.resetWith c).fp.rm = .nearestEven)

/-- R161: at reset nothing is registered; the invariant of every step (`MachineInv`) holds at reset, whatever the configuration. -/
def Obligations.InvariantHoldsAtReset : Prop :=
  (∀ c : Config, (State.resetWith c).registrations = [] ∧ MachineInv (State.resetWith c)) ∧ MachineInv State.reset

-- ## TRANSLATE

/-- R81: for every legal kind and every configured translator TRANSLATE answers the outcome, a failure as data, and changes
nothing else: no register, no registration. -/
def Obligations.TranslateAnswersTheOutcome : Prop :=
  ∀ (va : VAddr) (kind : AccessKind) (regime : Regime) (s : State), kind ≠ .reserved →
    exec (.translate va kind regime) s =
      .next { s with response := some (.outcome (Translator.apply s.cfg.translator va kind regime)) }

/-- R80: the hardware's policy answers Match with the low 32 bits of the address and all three permissions (code 0b111), for
every address, kind and regime. -/
def Obligations.TranslateIsTheIdentityOnHardware : Prop :=
  ∀ (va : VAddr) (kind : AccessKind) (regime : Regime) (s : State), kind ≠ .reserved → OnHardware s →
    ∃ (pa : PAddr) (perms : Perms),
      exec (.translate va kind regime) s = .next { s with response := some (.outcome (.matched pa perms)) } ∧
      (∀ j, j < 32 → pa.getLsbD j = va.getLsbD j) ∧ permsCode perms = 0b111#3

/-- R82: whatever the block does between two TRANSLATE commands with the same operands, both answer the same outcome, and
each changes neither a register nor the registrations. -/
def Obligations.TranslateAnswersTheSameAfterAnyRun : Prop :=
  ∀ (n : Nat) (s s' : State) (va : VAddr) (kind : AccessKind) (regime : Regime),
    Sys2Proof.core.run n s = .next s' → kind ≠ .reserved →
    ∃ out, exec (.translate va kind regime) s = .next { s with response := some (.outcome out) } ∧
      exec (.translate va kind regime) s' = .next { s' with response := some (.outcome out) }

/-- R66: TRANSLATE and FILL with the reserved kind are refused: no next state, no response, no registration, no fault. -/
def Obligations.ReservedKindIsRefused : Prop :=
  ∀ (va : VAddr) (size : BitVec 16) (regime : Regime) (probe : Bool) (s : State),
    exec (.translate va .reserved regime) s = .refused (.illegalCommand .reservedKind) ∧
    exec (.fill va size .reserved regime probe) s = .refused (.illegalCommand .reservedKind)

-- ## FILL

/-- R93, R94: when the translation matches, FILL makes exactly one registration and answers `true`, whatever `probe` and
`size` are. The virtual page is the address with bits `PAGE_BITS-1:0` cleared and bits 63:32 kept, the physical page the
translated address aligned the same way, the permissions widened by Execute, the regime the FILL's, the granule PAGE_SIZE.
The translator is asked with the discriminant of R91: Store for a Store, Load's code for Load and Fetch. -/
def Obligations.FillRegistersThePageOnMatch : Prop :=
  ∀ (va : VAddr) (size : BitVec 16) (kind : AccessKind) (regime : Regime) (probe : Bool) (s : State)
    (pa : PAddr) (perms : Perms), kind ≠ .reserved →
    Translator.apply s.cfg.translator va (if kind = .store then .store else .load) regime = .matched pa perms →
    ∃ m : Registration,
      exec (.fill va size kind regime probe) s =
        .next { s with registrations := s.registrations ++ [m], response := some (.filled true) } ∧
      (∀ j, m.vpage.getLsbD j = (decide (s.cfg.pageBits ≤ j) && va.getLsbD j)) ∧
      (∀ j, m.ppage.getLsbD j = (decide (s.cfg.pageBits ≤ j) && pa.getLsbD j)) ∧
      permsCode m.perms = permsCode perms ||| 0b100#3 ∧ m.regime = regime ∧ m.granule = 2 ^ s.cfg.pageBits

/-- R97: on the hardware every FILL of a legal kind takes the Match path: it registers the page of its address, physical
page from the low 32 bits, all permissions, and answers `true`. -/
def Obligations.FillAlwaysSucceedsOnHardware : Prop :=
  ∀ (va : VAddr) (size : BitVec 16) (kind : AccessKind) (regime : Regime) (probe : Bool) (s : State),
    kind ≠ .reserved → OnHardware s →
    ∃ m : Registration,
      exec (.fill va size kind regime probe) s =
        .next { s with registrations := s.registrations ++ [m], response := some (.filled true) } ∧
      (∀ j, m.vpage.getLsbD j = (decide (s.cfg.pageBits ≤ j) && va.getLsbD j)) ∧
      (∀ j, m.ppage.getLsbD j = (decide (s.cfg.pageBits ≤ j ∧ j < 32) && va.getLsbD j)) ∧
      permsCode m.perms = 0b111#3 ∧ m.regime = regime ∧ m.granule = 2 ^ s.cfg.pageBits

/-- R95: on any failure outcome a probing FILL answers `false` and changes nothing else. -/
def Obligations.ProbeFailureAnswersFalse : Prop :=
  ∀ (va : VAddr) (size : BitVec 16) (kind : AccessKind) (regime : Regime) (s : State) (k : FailKind),
    kind ≠ .reserved →
    Translator.apply s.cfg.translator va (if kind = .store then .store else .load) regime = .fail k →
    exec (.fill va size kind regime true) s = .next { s with response := some (.filled false) }

/-- R96, R73: on any failure outcome a FILL that does not probe raises the MMU fault with the unmasked address, the
read/write discriminant (1 for Store, 0 for Load and Fetch) and the failure kind. -/
def Obligations.NonProbeFailureRaisesTheMmuFault : Prop :=
  ∀ (va : VAddr) (size : BitVec 16) (kind : AccessKind) (regime : Regime) (s : State) (k : FailKind),
    kind ≠ .reserved →
    Translator.apply s.cfg.translator va (if kind = .store then .store else .load) regime = .fail k →
    exec (.fill va size kind regime false) s =
      .fault (.mmuFault { address := va, rw := if kind = .store then 1#1 else 0#1, kind := k })

/-- R140: the block faults only by the MMU fault of a non-probing FILL whose translation failed, with that failure's kind and
code; no other operation faults, a refused command is no fault, and on the hardware nothing faults. -/
def Obligations.OnlyAFailingFillFaults : Prop :=
  (∀ (i : Instr) (s : State) (f : Fault), exec i s = .fault f →
    ∃ va size kind regime k, i = .fill va size kind regime false ∧ kind ≠ .reserved ∧
      Translator.apply s.cfg.translator va (if kind = .store then .store else .load) regime = .fail k ∧
      f = .mmuFault { address := va, rw := if kind = .store then 1#1 else 0#1, kind := k } ∧
      (k = .badAddress ∧ (failCode k).toInt = -1 ∨ k = .noMatch ∧ (failCode k).toInt = -2 ∨
        k = .invalid ∧ (failCode k).toInt = -3 ∨ k = .dirty ∧ (failCode k).toInt = -4)) ∧
  (∀ (c : Command) (rest : List Command) (s : State) (why : IllegalCommand) (f : Fault),
    s.commands = c :: rest → decode c = .error why → step s ≠ .fault f) ∧
  (∀ (i : Instr) (s : State) (f : Fault), OnHardware s → exec i s ≠ .fault f)

/-- R69: the outcome codes: Match 0, BadAddress -1, NoMatch -2, Invalid -3, Dirty -4, as 32-bit two's complement. -/
def Obligations.OutcomeCodesAreTheSpecs : Prop :=
  (∀ pa perms, (outcomeCode (.matched pa perms)).toInt = 0) ∧
  (outcomeCode (.fail .badAddress)).toInt = -1 ∧ (outcomeCode (.fail .noMatch)).toInt = -2 ∧
  (outcomeCode (.fail .invalid)).toInt = -3 ∧ (outcomeCode (.fail .dirty)).toInt = -4 ∧
  (∀ o o' : TransOutcome, outcomeCode o = outcomeCode o' →
    o = o' ∨ ∃ pa perms pa' perms', o = .matched pa perms ∧ o' = .matched pa' perms')

/-- R50, R82, R99: what TRANSLATE and FILL answer, register or raise depends on the configuration and their operands alone: not
on the registers, the earlier registrations or the earlier responses, nor on the size. -/
def Obligations.AddressOperationsReadOnlyTheConfiguration : Prop :=
  ∀ (va : VAddr) (size size' : BitVec 16) (kind : AccessKind) (regime : Regime) (probe : Bool) (s s' : State),
    s.cfg = s'.cfg → kind ≠ .reserved →
    (∃ r, exec (.translate va kind regime) s = .next { s with response := some r } ∧
      exec (.translate va kind regime) s' = .next { s' with response := some r }) ∧
    ((∃ ms r, exec (.fill va size kind regime probe) s =
          .next { s with registrations := s.registrations ++ ms, response := some r } ∧
        exec (.fill va size' kind regime probe) s' =
          .next { s' with registrations := s'.registrations ++ ms, response := some r }) ∨
      ∃ f, exec (.fill va size kind regime probe) s = .fault f ∧
        exec (.fill va size' kind regime probe) s' = .fault f)

-- ## The status bit cache

/-- R110: PSW_READ answers the stored low 24 bits, the sign bits of slots 0 to 6 as bits 24 to 30, and whether slot 7 is
nonzero as bit 31, and changes nothing else. -/
def Obligations.PswReadPacksTheSlots : Prop :=
  ∀ s : State, ∃ r : Word,
    exec .pswRead s = .next { s with response := some (.psw r) } ∧
    (∀ j, j < 24 → r.getLsbD j = s.pswRaw.getLsbD j) ∧
    (∀ i : Fin 8, i.val < 7 → r.getLsbD (24 + i.val) = (s.usb[i]).getLsbD 31) ∧
    r.getLsbD 31 = (s.usb[7] != 0#32)

/-- R111, R112: PSW_WRITE stores the value, sets every slot to 0x80000000 or 0 by its bit, takes the rounding mode from bits
25:24, sets the three policy flags, and changes nothing else. -/
def Obligations.PswWriteUnpacksAndSynchronises : Prop :=
  ∀ (v : Word) (s : State), ∃ (usb : Vector Word 8) (rm : RoundingMode),
    exec (.pswWrite v) s =
      .next { s with pswRaw := v, usb := usb, fp := ⟨rm, true, true, true⟩, response := some .done } ∧
    (∀ i : Fin 8, usb[i] = if v.getLsbD (24 + i.val) then 0x80000000#32 else 0#32) ∧
    roundingCode rm = v.extractLsb' 24 2

/-- R116: PSW_WRITE v followed by PSW_READ answers exactly v, from every state. -/
def Obligations.PswRoundTrip : Prop :=
  ∀ (v : Word) (s : State), ∃ t, exec (.pswWrite v) s = .next t ∧
    exec .pswRead t = .next { t with response := some (.psw v) }

/-- R117: writing a value with one high bit toggled reads back with that bit alone toggled, and among the slots changes
that bit's slot alone. -/
def Obligations.PswBitsAreIndependent : Prop :=
  ∀ (v : Word) (k : Fin 8) (s : State), ∃ t t',
    exec (.pswWrite v) s = .next t ∧ exec (.pswWrite (v ^^^ (1#32 <<< (24 + k.val)))) s = .next t' ∧
    exec .pswRead t' = .next { t' with response := some (.psw (v ^^^ (1#32 <<< (24 + k.val)))) } ∧
    t'.usb[k] ≠ t.usb[k] ∧ ∀ i : Fin 8, i ≠ k → t'.usb[i] = t.usb[i]

/-- R118: after PSW_WRITE v, slot i of 0 to 6 is negative exactly when bit 24+i of v is 1, and slot 7 is nonzero exactly
when bit 31 is. -/
def Obligations.SlotSignsFollowTheWrittenPsw : Prop :=
  ∀ (v : Word) (s : State), ∃ t, exec (.pswWrite v) s = .next t ∧
    (∀ i : Fin 8, i.val < 7 → ((t.usb[i]).toInt < 0 ↔ (v >>> (24 + i.val)) &&& 1#32 = 1#32)) ∧
    (t.usb[7] ≠ 0#32 ↔ v.getLsbD 31 = true)

/-- R113: SLOT_READ answers the slot's word as stored and changes nothing else. -/
def Obligations.SlotReadAnswersTheStoredWord : Prop :=
  ∀ (k : Fin 8) (s : State), exec (.slotRead k) s = .next { s with response := some (.slot s.usb[k]) }

/-- R114: SLOT_WRITE stores its word in its slot alone; PSW_RAW, FpCtx, every other slot and the registrations stay. -/
def Obligations.SlotWriteChangesItsSlotAlone : Prop :=
  ∀ (k : Fin 8) (d : Word) (s : State), ∃ usb : Vector Word 8,
    exec (.slotWrite k d) s = .next { s with usb := usb, response := some .done } ∧
    usb[k] = d ∧ ∀ j : Fin 8, j ≠ k → usb[j] = s.usb[j]

/-- R114: SLOT_WRITE stores its word in its slot alone, whatever the word. The next PSW_READ differs from the one before in
bit 24+k at most, which is now the flag the word encodes (R23): its sign bit for slots 0 to 6, whether it is nonzero for
slot 7. The next PSW_WRITE overwrites it. -/
def Obligations.SlotWriteShowsAsOneBitOfThePsw : Prop :=
  ∀ (k : Fin 8) (d v : Word) (s : State), ∃ (usb : Vector Word 8) (t u u' : State) (r r' : Word),
    t = { s with usb := usb, response := some .done } ∧
    exec .pswRead s = .next { s with response := some (.psw r) } ∧
    exec (.slotWrite k d) s = .next t ∧
    (∀ j : Fin 8, usb[j] = if j = k then d else s.usb[j]) ∧
    exec .pswRead t = .next { t with response := some (.psw r') } ∧
    (∀ j, j < 32 → j ≠ 24 + k.val → r'.getLsbD j = r.getLsbD j) ∧
    (r'.getLsbD (24 + k.val) = if k.val = 7 then d != 0#32 else d.getLsbD 31) ∧
    exec (.pswWrite v) t = .next u ∧ exec (.pswWrite v) s = .next u' ∧ u = u'

/-- R115: RAW_WRITE stores PSW_RAW alone. Its low 24 bits show at once in PSW_READ and its high 8 do not; FPCTX_READ answers
as before (R165); the next FPU_SYNC takes the mode of its bits 25:24; a PSW_WRITE overwrites it. -/
def Obligations.RawWriteReachesTheLowBitsAtOnceAndTheModeAtSync : Prop :=
  ∀ (d v : Word) (s : State), ∃ (t u : State) (r r' : Word) (code : BitVec 5),
    t = { s with pswRaw := d, response := some .done } ∧
    exec (.rawWrite d) s = .next t ∧
    exec .pswRead s = .next { s with response := some (.psw r) } ∧
    exec .pswRead t = .next { t with response := some (.psw r') } ∧
    (∀ j, j < 24 → r'.getLsbD j = d.getLsbD j) ∧ (∀ j, 24 ≤ j → r'.getLsbD j = r.getLsbD j) ∧
    exec .fpctxRead s = .next { s with response := some (.fpCode code) } ∧
    exec .fpctxRead t = .next { t with response := some (.fpCode code) } ∧
    exec .fpuSync t = .next u ∧ roundingCode u.fp.rm = d.extractLsb' 24 2 ∧
    exec (.pswWrite v) t = exec (.pswWrite v) s

-- ## FP mode synchronisation

/-- R130, R131: FPU_SYNC takes the mode coded by PSW_RAW[25:24], whatever the slots hold, sets the three flags, changes nothing
else, and a second FPU_SYNC changes nothing more. -/
def Obligations.FpuSyncDerivesTheContextFromTheStoredWord : Prop :=
  ∀ s : State, ∃ (rm : RoundingMode) (t : State),
    t = { s with fp := ⟨rm, true, true, true⟩, response := some .done } ∧
    exec .fpuSync s = .next t ∧ roundingCode rm = s.pswRaw.extractLsb' 24 2 ∧
    (s.pswRaw.extractLsb' 24 2 = 0b00#2 → rm = .nearestEven) ∧
    (s.pswRaw.extractLsb' 24 2 = 0b01#2 → rm = .up) ∧
    (s.pswRaw.extractLsb' 24 2 = 0b10#2 → rm = .down) ∧
    (s.pswRaw.extractLsb' 24 2 = 0b11#2 → rm = .towardZero) ∧
    exec .fpuSync t = .next t

/-- R132, R72: FPCTX_READ answers the 5-bit code with the mode in bits 1:0 and fiz, ftz, dn in bits 2, 3, 4, and changes
nothing else; right after PSW_WRITE v, and right after FPU_SYNC, it answers 0x1C | mode bits, regardless of prior state. -/
def Obligations.FpctxReadAnswersTheCode : Prop :=
  ∀ (v : Word) (s : State), ∃ (code : BitVec 5) (t u : State),
    exec .fpctxRead s = .next { s with response := some (.fpCode code) } ∧
    code.extractLsb' 0 2 = roundingCode s.fp.rm ∧ code.getLsbD 2 = s.fp.fiz ∧
    code.getLsbD 3 = s.fp.ftz ∧ code.getLsbD 4 = s.fp.dn ∧
    exec (.pswWrite v) s = .next t ∧
    exec .fpctxRead t =
      .next { t with response := some (.fpCode (0x1C#5 ||| (v.extractLsb' 24 2).setWidth 5)) } ∧
    exec .fpuSync s = .next u ∧
    exec .fpctxRead u =
      .next { u with response := some (.fpCode (0x1C#5 ||| (s.pswRaw.extractLsb' 24 2).setWidth 5)) }

/-- R166: a SLOT_WRITE reaches the FP context neither at once nor at the next FPU_SYNC; reading the PSW and writing the value
back makes the mode follow the flags of slots 1 and 0. -/
def Obligations.SlotWritesNeverReachTheFpContext : Prop :=
  ∀ (k : Fin 8) (d : Word) (s : State), ∃ (t u v w : State) (r : Word),
    exec (.slotWrite k d) s = .next t ∧ t.fp = s.fp ∧ t.pswRaw = s.pswRaw ∧
    exec .fpuSync t = .next u ∧ exec .fpuSync s = .next v ∧ u.fp = v.fp ∧
    exec .pswRead t = .next { t with response := some (.psw r) } ∧
    exec (.pswWrite r) { t with response := some (.psw r) } = .next w ∧
    roundingCode w.fp.rm = BitVec.ofBool ((t.usb[1]).getLsbD 31) ++ BitVec.ofBool ((t.usb[0]).getLsbD 31)

-- ## The whole machine

/-- 10_state.md section 5, R26, R28, R56: who writes each element. An operation that completes leaves PSW_RAW unless it is
PSW_WRITE or RAW_WRITE, each slot unless it is PSW_WRITE or a SLOT_WRITE of that slot, FpCtx unless it is PSW_WRITE or
FPU_SYNC, the registrations unless it is FILL; no operation changes the configuration or takes a command. -/
def Obligations.EachElementHasItsWriters : Prop :=
  ∀ (i : Instr) (s t : State), exec i s = .next t →
    (t.pswRaw ≠ s.pswRaw → ∃ d, i = .pswWrite d ∨ i = .rawWrite d) ∧
    (∀ k : Fin 8, t.usb[k] ≠ s.usb[k] → ∃ d, i = .pswWrite d ∨ i = .slotWrite k d) ∧
    (t.fp ≠ s.fp → i = .fpuSync ∨ ∃ d, i = .pswWrite d) ∧
    (t.registrations ≠ s.registrations → ∃ va size kind regime probe, i = .fill va size kind regime probe) ∧
    t.cfg = s.cfg ∧ t.commands = s.commands ∧ t.response ≠ none

/-- R162: every well-formed operation is defined in every state of the hardware: it answers a next state. -/
def Obligations.EveryOperationCompletesOnHardware : Prop :=
  ∀ (i : Instr) (s : State), i.wellFormed = true → OnHardware s → ∃ t, exec i s = .next t

/-- R162, R52: on the hardware, a program of legal commands runs to its end, one command a step, from every state.
That steps after the last command are idle is the model's choice (log 3). -/
def Obligations.LegalProgramsRunToTheirEndOnHardware : Prop :=
  ∀ (n : Nat) (s : State), OnHardware s → (∀ c ∈ s.commands, ∃ i, decode c = .ok i) →
    ∃ s', Sys2Proof.core.run n s = .next s' ∧ s'.commands = s.commands.drop n

/-- R97, R140: no run on the hardware ends in a fault, whatever the commands. -/
def Obligations.NoRunFaultsOnHardware : Prop :=
  ∀ (n : Nat) (s : State) (f : Fault), OnHardware s → Sys2Proof.core.run n s ≠ .fault f

/-- R28: no run changes the configuration. -/
def Obligations.NoRunChangesTheConfiguration : Prop :=
  ∀ (n : Nat) (s s' : State), Sys2Proof.core.run n s = .next s' → s'.cfg = s.cfg

/-- R56, R167: a step keeps every registration made before it, and adds at most one, only when the command it takes is a FILL. -/
def Obligations.StepKeepsEveryRegistration : Prop :=
  ∀ s s' : State, step s = .next s' →
    s'.registrations = s.registrations ∨
    ∃ m c va size kind regime probe, s'.registrations = s.registrations ++ [m] ∧ s.commands.head? = some c ∧
      decode c = .ok (.fill va size kind regime probe)

/-- R130, R93, R167: `MachineInv` is kept by every step from every state that meets it: the policy flags stay set, every registration is
aligned and grants Execute, and on the hardware every registration is an identity mapping. -/
def Obligations.EveryStepKeepsTheInvariant : Prop :=
  ∀ s s' : State, MachineInv s → step s = .next s' → MachineInv s'

/-- R24: over every run whose commands hold no SLOT_WRITE, the sign bit of slot i equals bit 24+i of the last value given to
PSW_WRITE, or of the value the slots held at the start where none was given. -/
def Obligations.SlotsHoldTheLastWrittenPsw : Prop :=
  ∀ (n : Nat) (v : Word) (s s' : State), SlotsHold v s → (∀ c ∈ s.commands, isSlotWrite c = false) →
    Sys2Proof.core.run n s = .next s' → SlotsHold (lastWrittenPsw v (s.commands.take n)) s'

/-- R30, R60: a step runs the decoded command: it takes the next command word and, where the word decodes to an instruction, is
`exec` of it in the state with that word taken. -/
def Obligations.StepRunsTheDecodedCommand : Prop :=
  ∀ (s : State) (c : Command) (rest : List Command) (i : Instr), s.commands = c :: rest → decode c = .ok i →
    step s = exec i { s with commands := rest }

/-- The model's choice (log 3): with no command handed over the step leaves the state as it is. -/
def Obligations.StepIsIdleWithoutACommand : Prop :=
  ∀ s : State, s.commands = [] → step s = .next s

/-- R52: a step that answers a next state has taken exactly the oldest command. -/
def Obligations.StepTakesCommandsInOrder : Prop :=
  ∀ s s' : State, step s = .next s' → s'.commands = s.commands.tail

-- ## Encoding

/-- Words written out from R61 and R63 (V1, V72, V73, V74 and the programs of 95_test_vectors.md) decode to their commands. -/
def Obligations.SpecWordsDecode : Prop :=
  decode 0x0000000012345678_00000000_00000000#128 = .ok (.translate 0x12345678 .load 0) ∧
  decode 0x0000000012345678_00000000_00040091#128 = .ok (.fill 0x12345678 4 .store 2 false) ∧
  decode 0xFFFFFFFF80000010_00000000_00020421#128 = .ok (.fill 0xFFFFFFFF80000010 2 .fetch 0 true) ∧
  decode 0x0000000000000000_FFFFFFFF_00003802#128 = .ok .pswRead ∧
  decode 0x0000000000000000_03000055_00000003#128 = .ok (.pswWrite 0x03000055) ∧
  decode 0x0000000000000000_00000000_00000805#128 = .ok (.slotRead 1) ∧
  decode 0x0000000000000000_C0000000_00003006#128 = .ok (.slotWrite 6 0xC0000000) ∧
  decode 0x0000000000000000_00ABCDEF_00000007#128 = .ok (.rawWrite 0x00ABCDEF)

/-- R61, R63, opcode_table.json: every word that matches a row of the operation map decodes to that row's operation, with its
operands read from the fields of R61 and no other field read. -/
def Obligations.OpcodeTableRowsDecode : Prop :=
  ∀ c : Command,
    (∀ kind : AccessKind, kind ≠ .reserved → kind.code = c.extractLsb' 4 2 →
      (c &&& 0xC00F#128 = 0x0#128 → decode c = .ok (.translate (c.extractLsb' 64 64) kind (c.extractLsb' 6 4))) ∧
      (c &&& 0xC00F#128 = 0x1#128 → decode c =
        .ok (.fill (c.extractLsb' 64 64) (c.extractLsb' 16 16) kind (c.extractLsb' 6 4) (c.getLsbD 10)))) ∧
    (c &&& 0xC00F#128 = 0x2#128 → decode c = .ok .pswRead) ∧
    (c &&& 0xC00F#128 = 0x3#128 → decode c = .ok (.pswWrite (c.extractLsb' 32 32))) ∧
    (c &&& 0xC00F#128 = 0x4#128 → decode c = .ok .fpuSync) ∧
    (c &&& 0xC00F#128 = 0x5#128 → ∃ k : Fin 8, k.val = (c.extractLsb' 11 3).toNat ∧ decode c = .ok (.slotRead k)) ∧
    (c &&& 0xC00F#128 = 0x6#128 →
      ∃ k : Fin 8, k.val = (c.extractLsb' 11 3).toNat ∧ decode c = .ok (.slotWrite k (c.extractLsb' 32 32))) ∧
    (c &&& 0xC00F#128 = 0x7#128 → decode c = .ok (.rawWrite (c.extractLsb' 32 32))) ∧
    (c &&& 0xC00F#128 = 0x8#128 → decode c = .ok .fpctxRead)

/-- R66: a word is refused exactly when op is 0x9 to 0xF, or rsv is not 0, or op is TRANSLATE or FILL and kind is 3; the step
then refuses it: no next state, no response, no registration, no fault. A field that its operation does not use is
ignored: a word that agrees with a legal one on the bits its operation uses decodes to the same instruction. -/
def Obligations.DecodeRefusesExactlyTheIllegalWords : Prop :=
  (∀ c : Command, (∃ why, decode c = .error why) ↔
    9 ≤ (c.extractLsb' 0 4).toNat ∨ c.extractLsb' 14 2 ≠ 0#2 ∨
      ((c.extractLsb' 0 4).toNat ≤ 1 ∧ c.extractLsb' 4 2 = 3#2)) ∧
  (∀ (c : Command) (rest : List Command) (why : IllegalCommand) (s : State), s.commands = c :: rest →
    decode c = .error why → step s = .refused (.illegalCommand why)) ∧
  (∀ (c c' : Command) (i : Instr), decode c = .ok i → c' &&& usedBits i = c &&& usedBits i → decode c' = .ok i)

/-- Decode and encode agree: the encoding of every well-formed instruction decodes to it, every operand at every value. -/
def Obligations.DecodeOfEncode : Prop :=
  ∀ i : Instr, i.wellFormed = true → decode (encode i) = .ok i

/-- Encode and decode agree: a word that decodes is well formed, and is, on the bits its operation uses, the word its
instruction encodes to. -/
def Obligations.EncodeOfDecode : Prop :=
  ∀ (c : Command) (i : Instr), decode c = .ok i → i.wellFormed = true ∧ encode i = c &&& usedBits i

/-- R75: the assembler line of every well-formed instruction, with the operands in the rule's order, spells that instruction. -/
def Obligations.AssemblerLineRoundTrip : Prop :=
  ∀ i : Instr, i.wellFormed = true → instrOfLine (asmLine i) = some i
end

