-- ==== Sys2Proof/Laws/Decode.lean ====
section
/-! SUPPORT. The fields of a command word put together by `commandWord` are the fields it was given (R61); the codes of the
kinds read back (R64). -/

namespace Sys2Proof

@[simp] theorem AccessKind.ofCode_code : ∀ k : AccessKind, AccessKind.ofCode k.code = k := by
  intro k; cases k <;> rfl

@[simp] theorem AccessKind.code_ofCode : ∀ c : BitVec 2, (AccessKind.ofCode c).code = c := by decide

/-- The reserved code is the one kind no command may carry (R66). -/
theorem AccessKind.legal_ofCode : ∀ c : BitVec 2, (AccessKind.ofCode c).legal = decide (c ≠ 3#2) := by decide

theorem AccessKind.legal_iff (k : AccessKind) : k.legal = true ↔ k ≠ .reserved := by cases k <;> simp [AccessKind.legal]

@[simp] theorem slotOfField_fieldOfSlot (k : Fin 8) : slotOfField (fieldOfSlot k) = k := rfl

@[simp] theorem fieldOfSlot_slotOfField (f : BitVec 3) : fieldOfSlot (slotOfField f) = f := rfl

section Fields

variable (vaddr : VAddr) (data : Word) (size : BitVec 16) (rsv : BitVec 2) (slot : BitVec 3) (probe : BitVec 1)
  (regime : BitVec 4) (kind : BitVec 2) (op : BitVec 4)

/-- Which field a bit of a command word belongs to, and which bit of it (R61). -/
theorem getLsbD_commandWord (j : Nat) :
    (commandWord vaddr data size rsv slot probe regime kind op).getLsbD j =
      if j < 4 then op.getLsbD j
      else if j < 6 then kind.getLsbD (j - 4)
      else if j < 10 then regime.getLsbD (j - 6)
      else if j < 11 then probe.getLsbD (j - 10)
      else if j < 14 then slot.getLsbD (j - 11)
      else if j < 16 then rsv.getLsbD (j - 14)
      else if j < 32 then size.getLsbD (j - 16)
      else if j < 64 then data.getLsbD (j - 32)
      else vaddr.getLsbD (j - 64) := by
  change BitVec.getLsbD (w := 64 + 32 + 16 + 2 + 3 + 1 + 4 + 2 + 4)
    (vaddr ++ data ++ size ++ rsv ++ slot ++ probe ++ regime ++ kind ++ op) j = _
  iterate 8 rw [BitVec.getLsbD_append]
  simp only [Nat.sub_sub, Nat.reduceAdd]
  by_cases h0 : j < 4
  · rw [if_pos h0, if_pos h0]
  rw [if_neg h0, if_neg h0]
  by_cases h1 : j < 6
  · rw [if_pos (by omega), if_pos h1]
  rw [if_neg (by omega), if_neg h1]
  by_cases h2 : j < 10
  · rw [if_pos (by omega), if_pos h2]
  rw [if_neg (by omega), if_neg h2]
  by_cases h3 : j < 11
  · rw [if_pos (by omega), if_pos h3]
  rw [if_neg (by omega), if_neg h3]
  by_cases h4 : j < 14
  · rw [if_pos (by omega), if_pos h4]
  rw [if_neg (by omega), if_neg h4]
  by_cases h5 : j < 16
  · rw [if_pos (by omega), if_pos h5]
  rw [if_neg (by omega), if_neg h5]
  by_cases h6 : j < 32
  · rw [if_pos (by omega), if_pos h6]
  rw [if_neg (by omega), if_neg h6]
  by_cases h7 : j < 64
  · rw [if_pos (by omega), if_pos h7]
  rw [if_neg (by omega), if_neg h7]

@[simp] theorem op_commandWord : (commandWord vaddr data size rsv slot probe regime kind op).op = op := by
  apply BitVec.eq_of_getLsbD_eq
  intro j hj
  simp [Command.op, getLsbD_commandWord, hj]

@[simp] theorem kind_commandWord : (commandWord vaddr data size rsv slot probe regime kind op).kind = kind := by
  apply BitVec.eq_of_getLsbD_eq
  intro j hj
  simp only [Command.kind, BitVec.getLsbD_extractLsb', getLsbD_commandWord]
  split_ifs <;> first | omega | simp [hj]

@[simp] theorem regime_commandWord : (commandWord vaddr data size rsv slot probe regime kind op).regime = regime := by
  apply BitVec.eq_of_getLsbD_eq
  intro j hj
  simp only [Command.regime, BitVec.getLsbD_extractLsb', getLsbD_commandWord]
  split_ifs <;> first | omega | simp [hj]

@[simp] theorem probe_commandWord : (commandWord vaddr data size rsv slot probe regime kind op).probe = probe := by
  apply BitVec.eq_of_getLsbD_eq
  intro j hj
  simp only [Command.probe, BitVec.getLsbD_extractLsb', getLsbD_commandWord]
  split_ifs <;> first | omega | simp [hj]

@[simp] theorem slot_commandWord : (commandWord vaddr data size rsv slot probe regime kind op).slot = slot := by
  apply BitVec.eq_of_getLsbD_eq
  intro j hj
  simp only [Command.slot, BitVec.getLsbD_extractLsb', getLsbD_commandWord]
  split_ifs <;> first | omega | simp [hj]

@[simp] theorem rsv_commandWord : (commandWord vaddr data size rsv slot probe regime kind op).rsv = rsv := by
  apply BitVec.eq_of_getLsbD_eq
  intro j hj
  simp only [Command.rsv, BitVec.getLsbD_extractLsb', getLsbD_commandWord]
  split_ifs <;> first | omega | simp [hj]

@[simp] theorem size_commandWord : (commandWord vaddr data size rsv slot probe regime kind op).size = size := by
  apply BitVec.eq_of_getLsbD_eq
  intro j hj
  simp only [Command.size, BitVec.getLsbD_extractLsb', getLsbD_commandWord]
  split_ifs <;> first | omega | simp [hj]

@[simp] theorem data_commandWord : (commandWord vaddr data size rsv slot probe regime kind op).data = data := by
  apply BitVec.eq_of_getLsbD_eq
  intro j hj
  simp only [Command.data, BitVec.getLsbD_extractLsb', getLsbD_commandWord]
  split_ifs <;> first | omega | simp [hj]

@[simp] theorem vaddr_commandWord : (commandWord vaddr data size rsv slot probe regime kind op).vaddr = vaddr := by
  apply BitVec.eq_of_getLsbD_eq
  intro j hj
  simp only [Command.vaddr, BitVec.getLsbD_extractLsb', getLsbD_commandWord]
  split_ifs <;> first | omega | simp [hj]

end Fields

/-- A command word is the word of its own fields: the fields of R61 cover all 128 bits. -/
theorem commandWord_fields (c : Command) :
    commandWord c.vaddr c.data c.size c.rsv c.slot c.probe c.regime c.kind c.op = c := by
  apply BitVec.eq_of_getLsbD_eq
  intro j hj
  rw [getLsbD_commandWord]
  split_ifs <;>
    simp only [Command.op, Command.kind, Command.regime, Command.probe, Command.slot, Command.rsv, Command.size,
      Command.data, Command.vaddr, BitVec.getLsbD_extractLsb'] <;>
    (rw [decide_eq_true (by omega), Bool.true_and]; congr 1; omega)

/-- Two words that agree under a mask agree on every field the mask covers. -/
theorem field_eq_of_masked_eq {c c' m : Command} (lo w : Nat) (h : c' &&& m = c &&& m)
    (hm : ∀ j, j < w → m.getLsbD (lo + j) = true) : c'.extractLsb' lo w = c.extractLsb' lo w := by
  apply BitVec.eq_of_getLsbD_eq
  intro j hj
  have := congrArg (fun b => b.getLsbD (lo + j)) h
  simp only [BitVec.getLsbD_and, hm j hj, Bool.and_true] at this
  simp [hj, this]

theorem requireLegalKind_ok {i j : Instr} (h : requireLegalKind j = .ok i) : j = i ∧ i.wellFormed = true := by
  unfold requireLegalKind at h
  split at h
  · injection h with h
    exact ⟨h, h ▸ ‹_›⟩
  · cases h

/-- Everything a word that decodes gives: its reserved bits are 0, and its instruction is the row its `op` selects with the
operands of R61. -/
theorem decode_ok_cases {c : Command} {i : Instr} (h : decode c = .ok i) : c.rsv = 0 ∧ i.wellFormed = true ∧
    ((c.op = 0x0 ∧ i = .translate c.vaddr (.ofCode c.kind) c.regime) ∨
      (c.op = 0x1 ∧ i = .fill c.vaddr c.size (.ofCode c.kind) c.regime (c.probe == 1)) ∨
      (c.op = 0x2 ∧ i = .pswRead) ∨ (c.op = 0x3 ∧ i = .pswWrite c.data) ∨ (c.op = 0x4 ∧ i = .fpuSync) ∨
      (c.op = 0x5 ∧ i = .slotRead (slotOfField c.slot)) ∨ (c.op = 0x6 ∧ i = .slotWrite (slotOfField c.slot) c.data) ∨
      (c.op = 0x7 ∧ i = .rawWrite c.data) ∨ (c.op = 0x8 ∧ i = .fpctxRead)) := by
  unfold decode at h
  split at h
  · refine ⟨‹_›, ?_⟩
    unfold decodeOp at h
    have hop : ∀ n, c.op.toNat = n → c.op = BitVec.ofNat 4 n := by
      intro n hn
      rw [← hn]
      simp
    split at h
    · obtain ⟨rfl, hw⟩ := requireLegalKind_ok h
      exact ⟨hw, .inl ⟨hop _ ‹_›, rfl⟩⟩
    · obtain ⟨rfl, hw⟩ := requireLegalKind_ok h
      exact ⟨hw, .inr (.inl ⟨hop _ ‹_›, rfl⟩)⟩
    all_goals first
      | (injection h with h
         subst h
         refine ⟨rfl, ?_⟩
         rw [hop _ ‹_›]
         simp)
      | cases h
  · cases h

end Sys2Proof
end

