-- ==== Sys2Proof/Laws/Flags.lean ====
section
/-! SUPPORT. What the flag computations, the FP derivation and the page alignment answer, bit by bit. -/

namespace Sys2Proof.Machine

@[simp] theorem fpCtxOf_flags (raw : Word) :
    (fpCtxOf raw).fiz = true ∧ (fpCtxOf raw).ftz = true ∧ (fpCtxOf raw).dn = true := ⟨rfl, rfl, rfl⟩

/-- The two readings of the rounding-mode table agree (R27). -/
theorem roundingCode_ofCode : ∀ c : BitVec 2, roundingCode (roundingOfCode c) = c := by decide

theorem fpCtxOf_rm_code (raw : Word) : roundingCode (fpCtxOf raw).rm = raw.extractLsb' 24 2 := roundingCode_ofCode _

/-- Slots 0 to 6 hold their flag in the sign bit (R23). -/
theorem slotFlag_of_lt (i : Fin 8) (h : i.val < 7) (word : Word) : slotFlag i word = word.getLsbD 31 := by
  have hne : i ≠ 7 := by
    rintro rfl
    exact absurd h (by decide)
  simp [slotFlag, hne, BitVec.msb_eq_getLsbD_last]

/-- The flag of slot `i` stands at bit `24 + i` and nowhere else. -/
theorem getLsbD_flagAtPlace (usb : Vector Word 8) (i : Fin 8) (j : Nat) :
    (flagAtPlace usb i).getLsbD j = (decide (j = 24 + i.val) && slotFlag i usb[i]) := by
  unfold flagAtPlace
  rw [BitVec.getLsbD_shiftLeft, BitVec.getLsbD_setWidth]
  by_cases h : j = 24 + i.val
  · subst h
    have := i.isLt
    simp
    omega
  · by_cases hlt : j < 24 + i.val
    · simp [h, hlt]
    · have h0 : j - (24 + i.val) ≠ 0 := by omega
      simp [h, h0]

/-- The low 24 bits of a packed PSW are the stored word's (R110, R25). -/
theorem getLsbD_packPsw_low (raw : Word) (usb : Vector Word 8) (j : Nat) (hj : j < 24) :
    (packPsw raw usb).getLsbD j = raw.getLsbD j := by
  have h : (0x00FFFFFF#32).getLsbD j = true := by interval_cases j <;> rfl
  have hne : ∀ i : Fin 8, decide (j = 24 + i.val) = false := fun i => by simp; omega
  simp only [packPsw, List.foldl, BitVec.getLsbD_or, BitVec.getLsbD_and, getLsbD_flagAtPlace, hne, h]
  simp

/-- Bit `24 + i` of a packed PSW is the flag slot `i` holds (R110, R23). -/
theorem getLsbD_packPsw_flag (raw : Word) (usb : Vector Word 8) (i : Fin 8) :
    (packPsw raw usb).getLsbD (24 + i.val) = slotFlag i usb[i] := by
  simp only [packPsw, List.foldl, BitVec.getLsbD_or, BitVec.getLsbD_and, getLsbD_flagAtPlace]
  fin_cases i <;> simp

/-- The slot words a PSW_WRITE stores: 0x80000000 or 0 by the bit (R111, R112). -/
theorem unpackPsw_slot (data : Word) (i : Fin 8) :
    (unpackPsw data)[i] = if data.getLsbD (24 + i.val) then 0x80000000#32 else 0#32 := by
  have key : ∀ k : Nat, k < 8 →
      (data &&& (1#32 <<< (24 + k))) <<< (7 - k) = if data.getLsbD (24 + k) then 0x80000000#32 else 0#32 := by
    intro k hk
    have hone : ∀ j, ((1#32 <<< (24 + k) : Word)).getLsbD j = decide (j = 24 + k) := by
      intro j
      rw [BitVec.getLsbD_shiftLeft, BitVec.getLsbD_one]
      by_cases h : j = 24 + k
      · subst h; simp; omega
      · simp [h]; omega
    have htop : ∀ j, (0x80000000#32 : Word).getLsbD j = decide (j = 31) := by
      intro j
      by_cases hj : j < 32
      · interval_cases j <;> rfl
      · rw [BitVec.getLsbD_of_ge _ _ (by omega)]
        simp; omega
    apply BitVec.eq_of_getLsbD_eq
    intro j hj
    rw [BitVec.getLsbD_shiftLeft, BitVec.getLsbD_and, hone]
    by_cases h31 : j = 31
    · subst h31
      have : 31 - (7 - k) = 24 + k := by omega
      by_cases hb : data.getLsbD (24 + k) = true
      · simp [this, hb]; omega
      · simp [this, hb]
    · by_cases hb : data.getLsbD (24 + k) = true
      · simp only [hb, if_true, htop, h31, decide_false]
        by_cases h7 : j < 7 - k
        · simp [h7]
        · have : j - (7 - k) ≠ 24 + k := by omega
          simp [this]
      · simp only [hb]
        by_cases h7 : j < 7 - k
        · simp [h7]
        · have : j - (7 - k) ≠ 24 + k := by omega
          simp [this]
  fin_cases i
  · exact key 0 (by omega)
  · exact key 1 (by omega)
  · exact key 2 (by omega)
  · exact key 3 (by omega)
  · exact key 4 (by omega)
  · exact key 5 (by omega)
  · exact key 6 (by omega)
  · exact (BitVec.shiftLeft_zero _).symm.trans (key 7 (by omega))

/-- Page alignment clears the low `PAGE_BITS` bits and keeps every other one (R43). -/
theorem getLsbD_pageAlign (c : Config) {w : Nat} (a : BitVec w) (j : Nat) :
    (pageAlign c a).getLsbD j = (decide (c.pageBits ≤ j) && a.getLsbD j) := by
  by_cases hj : j < w
  · have h : (BitVec.ofNat w (2 ^ c.pageBits - 1)).getLsbD j = decide (j < c.pageBits) := by
      rw [BitVec.getLsbD_ofNat, Nat.testBit_two_pow_sub_one]
      simp [hj]
    simp only [pageAlign, Config.pageSize, BitVec.getLsbD_and, BitVec.getLsbD_not, hj, h]
    by_cases hp : c.pageBits ≤ j
    · simp [hp]
    · simp [hp]; omega
  · rw [BitVec.getLsbD_of_ge _ _ (by omega), BitVec.getLsbD_of_ge _ _ (by omega)]
    simp

/-- Widening adds the Execute bit to the code (R93). -/
theorem permsCode_widenPerms : ∀ p : Perms, permsCode (widenPerms p) = permsCode p ||| 0b100#3 := by
  rintro ⟨r, w, x⟩
  revert r w x
  decide

end Sys2Proof.Machine
end

