-- ==== Sys2Proof/Laws/State.lean ====
section
/-! SUPPORT. The fields of a state after each named update, so that no proof unfolds a record update. -/

namespace Sys2Proof.Machine

@[simp] theorem State.respond_pswRaw (s : State) (r : Response) : (s.respond r).pswRaw = s.pswRaw := rfl
@[simp] theorem State.respond_usb (s : State) (r : Response) : (s.respond r).usb = s.usb := rfl
@[simp] theorem State.respond_fp (s : State) (r : Response) : (s.respond r).fp = s.fp := rfl
@[simp] theorem State.respond_registrations (s : State) (r : Response) : (s.respond r).registrations = s.registrations := rfl
@[simp] theorem State.respond_response (s : State) (r : Response) : (s.respond r).response = some r := rfl
@[simp] theorem State.respond_commands (s : State) (r : Response) : (s.respond r).commands = s.commands := rfl
@[simp] theorem State.respond_cfg (s : State) (r : Response) : (s.respond r).cfg = s.cfg := rfl

@[simp] theorem State.setRaw_pswRaw (s : State) (data : Word) : (s.setRaw data).pswRaw = data := rfl
@[simp] theorem State.setRaw_usb (s : State) (data : Word) : (s.setRaw data).usb = s.usb := rfl
@[simp] theorem State.setRaw_fp (s : State) (data : Word) : (s.setRaw data).fp = s.fp := rfl
@[simp] theorem State.setRaw_registrations (s : State) (data : Word) : (s.setRaw data).registrations = s.registrations := rfl
@[simp] theorem State.setRaw_response (s : State) (data : Word) : (s.setRaw data).response = s.response := rfl
@[simp] theorem State.setRaw_commands (s : State) (data : Word) : (s.setRaw data).commands = s.commands := rfl
@[simp] theorem State.setRaw_cfg (s : State) (data : Word) : (s.setRaw data).cfg = s.cfg := rfl

@[simp] theorem State.setSlots_pswRaw (s : State) (usb : Vector Word 8) : (s.setSlots usb).pswRaw = s.pswRaw := rfl
@[simp] theorem State.setSlots_usb (s : State) (usb : Vector Word 8) : (s.setSlots usb).usb = usb := rfl
@[simp] theorem State.setSlots_fp (s : State) (usb : Vector Word 8) : (s.setSlots usb).fp = s.fp := rfl
@[simp] theorem State.setSlots_registrations (s : State) (usb : Vector Word 8) : (s.setSlots usb).registrations = s.registrations := rfl
@[simp] theorem State.setSlots_response (s : State) (usb : Vector Word 8) : (s.setSlots usb).response = s.response := rfl
@[simp] theorem State.setSlots_commands (s : State) (usb : Vector Word 8) : (s.setSlots usb).commands = s.commands := rfl
@[simp] theorem State.setSlots_cfg (s : State) (usb : Vector Word 8) : (s.setSlots usb).cfg = s.cfg := rfl

@[simp] theorem State.setSlot_pswRaw (s : State) (slot : Fin 8) (data : Word) : (s.setSlot slot data).pswRaw = s.pswRaw := rfl
@[simp] theorem State.setSlot_usb (s : State) (slot : Fin 8) (data : Word) : (s.setSlot slot data).usb = s.usb.set slot data := rfl
@[simp] theorem State.setSlot_fp (s : State) (slot : Fin 8) (data : Word) : (s.setSlot slot data).fp = s.fp := rfl
@[simp] theorem State.setSlot_registrations (s : State) (slot : Fin 8) (data : Word) : (s.setSlot slot data).registrations = s.registrations := rfl
@[simp] theorem State.setSlot_response (s : State) (slot : Fin 8) (data : Word) : (s.setSlot slot data).response = s.response := rfl
@[simp] theorem State.setSlot_commands (s : State) (slot : Fin 8) (data : Word) : (s.setSlot slot data).commands = s.commands := rfl
@[simp] theorem State.setSlot_cfg (s : State) (slot : Fin 8) (data : Word) : (s.setSlot slot data).cfg = s.cfg := rfl

@[simp] theorem State.syncFp_pswRaw (s : State) : (s.syncFp).pswRaw = s.pswRaw := rfl
@[simp] theorem State.syncFp_usb (s : State) : (s.syncFp).usb = s.usb := rfl
@[simp] theorem State.syncFp_fp (s : State) : (s.syncFp).fp = fpCtxOf s.pswRaw := rfl
@[simp] theorem State.syncFp_registrations (s : State) : (s.syncFp).registrations = s.registrations := rfl
@[simp] theorem State.syncFp_response (s : State) : (s.syncFp).response = s.response := rfl
@[simp] theorem State.syncFp_commands (s : State) : (s.syncFp).commands = s.commands := rfl
@[simp] theorem State.syncFp_cfg (s : State) : (s.syncFp).cfg = s.cfg := rfl

@[simp] theorem State.register_pswRaw (s : State) (m : Registration) : (s.register m).pswRaw = s.pswRaw := rfl
@[simp] theorem State.register_usb (s : State) (m : Registration) : (s.register m).usb = s.usb := rfl
@[simp] theorem State.register_fp (s : State) (m : Registration) : (s.register m).fp = s.fp := rfl
@[simp] theorem State.register_registrations (s : State) (m : Registration) : (s.register m).registrations = s.registrations ++ [m] := rfl
@[simp] theorem State.register_response (s : State) (m : Registration) : (s.register m).response = s.response := rfl
@[simp] theorem State.register_commands (s : State) (m : Registration) : (s.register m).commands = s.commands := rfl
@[simp] theorem State.register_cfg (s : State) (m : Registration) : (s.register m).cfg = s.cfg := rfl

@[simp] theorem State.placeCommand_pswRaw (s : State) (c : Command) : (s.placeCommand c).pswRaw = s.pswRaw := rfl
@[simp] theorem State.placeCommand_usb (s : State) (c : Command) : (s.placeCommand c).usb = s.usb := rfl
@[simp] theorem State.placeCommand_fp (s : State) (c : Command) : (s.placeCommand c).fp = s.fp := rfl
@[simp] theorem State.placeCommand_registrations (s : State) (c : Command) : (s.placeCommand c).registrations = s.registrations := rfl
@[simp] theorem State.placeCommand_response (s : State) (c : Command) : (s.placeCommand c).response = s.response := rfl
@[simp] theorem State.placeCommand_commands (s : State) (c : Command) : (s.placeCommand c).commands = c :: s.commands.tail := rfl
@[simp] theorem State.placeCommand_cfg (s : State) (c : Command) : (s.placeCommand c).cfg = s.cfg := rfl

end Sys2Proof.Machine
end

