-- ==== Sys2Proof/Laws/Ops.lean ====
section
/-! SUPPORT. What each shared operation and each meaning can do, said once, and the induction over runs, packaged once. -/

namespace Sys2Proof.Machine

@[simp] theorem Translator.apply_identity (va : VAddr) (kind : AccessKind) (regime : Regime) :
    Translator.apply .identity va kind regime = .matched (va.extractLsb' 0 32) fullPerms := rfl

/-- The kind FILL asks the translator with: Store's code for Store, Load's for Load and Fetch (R68, R91). -/
theorem kindOfDiscriminant_normaliseKind (kind : AccessKind) (h : kind ≠ .reserved) :
    kindOfDiscriminant (normaliseKind kind) = if kind = .store then .store else .load := by
  cases kind <;> first | rfl | exact absurd rfl h

theorem normaliseKind_eq (kind : AccessKind) (h : kind ≠ .reserved) :
    normaliseKind kind = if kind = .store then 1#1 else 0#1 := by
  cases kind <;> first | rfl | exact absurd rfl h

/-- A FILL's translation, in the translator's own terms (R92). -/
theorem fillOutcome_eq (s : State) (va : VAddr) (kind : AccessKind) (regime : Regime) (h : kind ≠ .reserved) :
    s.fillOutcome va kind regime =
      Translator.apply s.cfg.translator va (if kind = .store then .store else .load) regime := by
  rw [State.fillOutcome, State.translate, kindOfDiscriminant_normaliseKind kind h]

/-- Taking a command takes the oldest one. -/
theorem takeCommand_eq (s : State) :
    (s.commands = [] ∧ s.takeCommand = none) ∨
      ∃ c rest, s.commands = c :: rest ∧ s.takeCommand = some (c, { s with commands := rest }) := by
  unfold State.takeCommand
  cases h : s.commands with
  | nil => exact .inl ⟨rfl, rfl⟩
  | cons c rest => exact .inr ⟨c, rest, rfl, rfl⟩

theorem takeCommand_placeCommand (s : State) (c : Command) :
    (s.placeCommand c).takeCommand = some (c, { s with commands := s.commands.tail }) := rfl

/-- Everything a TRANSLATE that completes does. -/
theorem execTranslate_next {va : VAddr} {kind : AccessKind} {regime : Regime} {s t : State}
    (h : exec (.translate va kind regime) s = .next t) :
    kind ≠ .reserved ∧ t = s.respond (.outcome (s.translate va kind regime)) := by
  change execTranslate va kind regime s = _ at h
  unfold execTranslate at h
  split at h
  · cases h
  · injection h with h
    exact ⟨‹_›, h.symm⟩

/-- Everything a FILL that completes does: a registration on a Match, or `false` on a probe failure. -/
theorem execFill_next {va : VAddr} {size : BitVec 16} {kind : AccessKind} {regime : Regime} {probe : Bool} {s t : State}
    (h : exec (.fill va size kind regime probe) s = .next t) :
    kind ≠ .reserved ∧
      ((∃ pa perms, s.fillOutcome va kind regime = .matched pa perms ∧
          t = (s.register (s.registrationFor va regime pa perms)).respond (.filled true)) ∨
        (∃ k, s.fillOutcome va kind regime = .fail k ∧ probe = true ∧ t = s.respond (.filled false))) := by
  change execFill va size kind regime probe s = _ at h
  unfold execFill at h
  split at h
  · cases h
  · refine ⟨‹_›, ?_⟩
    split at h
    · injection h with h
      exact .inl ⟨_, _, ‹_›, h.symm⟩
    · split at h
      · injection h with h
        exact .inr ⟨_, ‹_›, ‹_›, h.symm⟩
      · cases h

/-- No operation changes the configuration or takes a command (R28). -/
theorem exec_next_cfg_commands {i : Instr} {s t : State} (h : exec i s = .next t) :
    t.cfg = s.cfg ∧ t.commands = s.commands := by
  cases i with
  | translate va kind regime =>
    obtain ⟨-, rfl⟩ := execTranslate_next h
    exact ⟨rfl, rfl⟩
  | fill va size kind regime probe =>
    obtain ⟨-, ⟨pa, perms, -, rfl⟩ | ⟨k, -, -, rfl⟩⟩ := execFill_next h <;> exact ⟨rfl, rfl⟩
  | _ =>
    injection h with h
    subst h
    exact ⟨rfl, rfl⟩

/-- Everything a step that answers a next state does: nothing, or the decoded oldest command. -/
theorem step_next {s s' : State} (h : step s = .next s') :
    (s.commands = [] ∧ s' = s) ∨
      ∃ c rest i, s.commands = c :: rest ∧ decode c = .ok i ∧ exec i { s with commands := rest } = .next s' := by
  unfold step at h
  rcases takeCommand_eq s with ⟨h0, ht⟩ | ⟨c, rest, hc, ht⟩
  · rw [ht] at h
    injection h with h
    exact .inl ⟨h0, h.symm⟩
  · rw [ht] at h
    simp only at h
    split at h
    · exact .inr ⟨c, rest, _, hc, ‹_›, h⟩
    · cases h

theorem run_zero (s : State) : Sys2Proof.core.run 0 s = .next s := rfl

/-- A run is its first step and the run after it. -/
theorem run_succ (n : Nat) (s : State) :
    Sys2Proof.core.run (n + 1) s =
      match step s with
      | .next s' => Sys2Proof.core.run n s'
      | .fault f => .fault f
      | .refused r => .refused r := by
  refine (Host.Core.run.eq_2 Sys2Proof.core s n).trans ?_
  have e : Sys2Proof.core.step s = step s := rfl
  rw [e]
  cases step s <;> rfl

/-- A relation that every step keeps is kept by every run: the one induction over runs. -/
theorem run_induction {P : State → Prop} (hstep : ∀ s s', P s → step s = .next s' → P s') :
    ∀ (n : Nat) (s s' : State), P s → Sys2Proof.core.run n s = .next s' → P s' := by
  intro n
  induction n with
  | zero =>
    intro s s' hs h
    rw [run_zero] at h
    injection h with h
    exact h ▸ hs
  | succ n ih =>
    intro s s' hs h
    rw [run_succ] at h
    cases hst : step s with
    | next u =>
      rw [hst] at h
      exact ih u s' (hstep s u hs hst) h
    | fault f => rw [hst] at h; cases h
    | refused r => rw [hst] at h; cases h

end Sys2Proof.Machine
end

