-- ==== Sys2Proof/Laws/PerInstr.lean ====
section
/-! SUPPORT. Per instruction: the operation selector and the reserved bits of its encoding (30_encoding.md R61, R63, R66). -/

namespace Sys2Proof.Laws.EncodeShape

/-- The selector of each instruction (R63). -/
def selector : Instr → BitVec 4
  | .translate _ _ _ => 0x0
  | .fill _ _ _ _ _ => 0x1
  | .pswRead => 0x2
  | .pswWrite _ => 0x3
  | .fpuSync => 0x4
  | .slotRead _ => 0x5
  | .slotWrite _ _ => 0x6
  | .rawWrite _ => 0x7
  | .fpctxRead => 0x8

/-- The encoding of an instruction carries its selector in `op` and 0 in the reserved bits. -/
def Statement (i : Instr) : Prop := (encode i).op = selector i ∧ (encode i).rsv = 0

theorem translate (vaddr : VAddr) (kind : AccessKind) (regime : Regime) : Statement (.translate vaddr kind regime) :=
  ⟨op_commandWord .., rsv_commandWord ..⟩

theorem fill (vaddr : VAddr) (size : BitVec 16) (kind : AccessKind) (regime : Regime) (probe : Bool) :
    Statement (.fill vaddr size kind regime probe) := ⟨op_commandWord .., rsv_commandWord ..⟩

theorem pswRead : Statement .pswRead := ⟨op_commandWord .., rsv_commandWord ..⟩

theorem pswWrite (data : Word) : Statement (.pswWrite data) := ⟨op_commandWord .., rsv_commandWord ..⟩

theorem fpuSync : Statement .fpuSync := ⟨op_commandWord .., rsv_commandWord ..⟩

theorem slotRead (slot : Fin 8) : Statement (.slotRead slot) := ⟨op_commandWord .., rsv_commandWord ..⟩

theorem slotWrite (slot : Fin 8) (data : Word) : Statement (.slotWrite slot data) :=
  ⟨op_commandWord .., rsv_commandWord ..⟩

theorem rawWrite (data : Word) : Statement (.rawWrite data) := ⟨op_commandWord .., rsv_commandWord ..⟩

theorem fpctxRead : Statement .fpctxRead := ⟨op_commandWord .., rsv_commandWord ..⟩

end Sys2Proof.Laws.EncodeShape
end

