-- ==== Sys2Proof/Laws/Translator.lean ====
section
/-! SUPPORT. The plain-data translators lose no translation function (10_state.md R28, log 2): the inputs are finitely many, and
a translator lists what it answers for each. -/

namespace Sys2Proof.Machine

/-- The input a translation function reads. -/
abbrev Query := BitVec 64 × Fin 4 × BitVec 4

/-- The kind an index stands for. -/
def kindOfIndex (i : Fin 4) : AccessKind := AccessKind.ofCode (BitVec.ofFin i)

/-- Listing `f`'s answers for `qs` in front of `rest`. -/
def listAnswers (f : VAddr → AccessKind → Regime → TransOutcome) (rest : Translator) (qs : List Query) : Translator :=
  qs.foldr (fun q t => .override q.1 (kindOfIndex q.2.1) q.2.2 (f q.1 (kindOfIndex q.2.1) q.2.2) t) rest

theorem listAnswers_apply (f : VAddr → AccessKind → Regime → TransOutcome) (rest : Translator) (qs : List Query)
    (q : Query) (hq : q ∈ qs) :
    Translator.apply (listAnswers f rest qs) q.1 (kindOfIndex q.2.1) q.2.2 = f q.1 (kindOfIndex q.2.1) q.2.2 := by
  induction qs with
  | nil => cases hq
  | cons p ps ih =>
    simp only [listAnswers, List.foldr_cons, Translator.apply]
    split
    · obtain ⟨h1, h2, h3⟩ := ‹_ ∧ _›
      rw [h1, h2, h3]
    · rename_i hne
      rcases List.mem_cons.mp hq with rfl | hps
      · exact absurd (And.intro rfl (And.intro rfl rfl)) hne
      · exact ih hps

/-- Every function of an address, a kind and a regime is the reading of some translator (R28). -/
theorem translator_expresses_every_function (f : VAddr → AccessKind → Regime → TransOutcome) :
    ∃ t : Translator, ∀ va kind regime, Translator.apply t va kind regime = f va kind regime := by
  let e : (BitVec 64 × Fin 4 × BitVec 4) ≃ (Fin (2 ^ 64) × Fin 4 × Fin (2 ^ 4)) :=
    { toFun := fun q => (q.1.toFin, q.2.1, q.2.2.toFin)
      invFun := fun q => (BitVec.ofFin q.1, q.2.1, BitVec.ofFin q.2.2)
      left_inv := fun _ => rfl
      right_inv := fun _ => rfl }
  have hfin : ∃ qs : List Query, ∀ q, q ∈ qs := by
    obtain ⟨l, hl⟩ := (Finite.of_equiv _ e.symm : Finite Query).exists_univ_list
    exact ⟨l, hl.2⟩
  obtain ⟨qs, hqs⟩ := hfin
  refine ⟨listAnswers f .identity qs, fun va kind regime => ?_⟩
  have hk : kindOfIndex kind.code.toFin = kind := by cases kind <;> rfl
  have := listAnswers_apply f .identity qs (va, kind.code.toFin, regime) (hqs _)
  simpa only [hk] using this

end Sys2Proof.Machine
end

