-- ==== Sys2Proof/Tests/Slice0.lean ====
section
/-! SUPPORT. Tests: ill-formed terms refused, command words written out from R61, one step at a time from the vectors of
95_test_vectors.md (V…) and the rules' own examples, and a witness for the hypotheses of each statement. -/

namespace Sys2Proof.Tests

open Sys2Proof.Machine

/-- A block after reset with PSW_RESET 0, 14 page bits and the translator `t`. -/
def start (t : Translator := .identity) (pageBits : Nat := 14) : State :=
  State.resetWith { pageBits := pageBits, numRegimes := 16, pswReset := 0, translator := t }

/-- The next state of an outcome, if it is one. -/
def after : Host.Outcome State Fault Refusal → Option State
  | .next s => some s
  | .fault _ => none
  | .refused _ => none

/-- The fault of an outcome, if it is one. -/
def faultOf : Host.Outcome State Fault Refusal → Option Fault
  | .next _ => none
  | .fault f => some f
  | .refused _ => none

/-- The refusal of an outcome, if it is one. -/
def refusalOf : Host.Outcome State Fault Refusal → Option Refusal
  | .next _ => none
  | .fault _ => none
  | .refused r => some r

/-- The response of one operation. -/
def answer (i : Instr) (s : State) : Option Response := (after (exec i s)).bind (·.response)

/-- The registrations of one operation. -/
def registered (i : Instr) (s : State) : List Registration := ((after (exec i s)).map (·.registrations)).getD []

-- WellFormed: for the one check of each form, a term it refuses.
theorem test_wf_translate_reserved : Instr.wellFormed (.translate 0x12345678 .reserved 0) = false := by decide
theorem test_wf_fill_reserved : Instr.wellFormed (.fill 0x12345678 4 .reserved 0 true) = false := by decide
theorem test_config_wf_regimes : Config.reference.wf = true ∧ Config.wf ⟨14, 0, 0, .identity⟩ = false ∧
    Config.wf ⟨14, 17, 0, .identity⟩ = false := by decide
theorem test_wf_fill_fetch : Instr.wellFormed (.fill 0xFFFFFFFFFFFFFFFF 0xFFFF .fetch 15 true) = true := by decide

-- Decode: low words bit by bit, {size, rsv, slot, probe, regime, kind, op} of R61.
theorem test_decode_translate :
    decode (0x0000000100003FFF#64 ++ 0#32 ++ 0b0000000000000000_00_000_0_1111_10_0000#32) =
      .ok (.translate 0x0000000100003FFF .fetch 15) := by decide
theorem test_decode_fill :
    decode (0x0000000012345678#64 ++ 0#32 ++ 0b0000000000000100_00_000_0_0010_01_0001#32) =
      .ok (.fill 0x12345678 4 .store 2 false) := by decide
theorem test_decode_pswRead :
    decode (0#64 ++ 0xFFFFFFFF#32 ++ 0b0000000000000000_00_111_0_0000_00_0010#32) = .ok .pswRead := by decide
theorem test_decode_pswWrite :
    decode (0#64 ++ 0x03000055#32 ++ 0b0000000000000000_00_000_0_0000_00_0011#32) = .ok (.pswWrite 0x03000055) := by decide
theorem test_decode_fpuSync :
    decode (0#64 ++ 0#32 ++ 0b0000000000000000_00_000_0_0000_00_0100#32) = .ok .fpuSync := by decide
theorem test_decode_slotRead :
    decode (0#64 ++ 0#32 ++ 0b0000000000000000_00_110_0_0000_00_0101#32) = .ok (.slotRead 6) := by decide
theorem test_decode_slotWrite :
    decode (0#64 ++ 0x00000001#32 ++ 0b0000000000000000_00_111_0_0000_00_0110#32) = .ok (.slotWrite 7 1) := by decide
theorem test_decode_rawWrite :
    decode (0#64 ++ 0x00ABCDEF#32 ++ 0b0000000000000000_00_000_0_0000_00_0111#32) = .ok (.rawWrite 0x00ABCDEF) := by decide
theorem test_decode_fpctxRead :
    decode (0#64 ++ 0#32 ++ 0b0000000000000000_00_000_0_0000_00_1000#32) = .ok .fpctxRead := by decide
theorem test_decode_probe_V74 : decode 0xFFFFFFFF80000010_00000000_00020421#128 =
    .ok (.fill 0xFFFFFFFF80000010 2 .fetch 0 true) := by decide
theorem test_decode_reserved_op_V70 : decode 0x9#128 = .error (.reservedOp 9) := by decide
theorem test_decode_reserved_bits_V71 : decode 0x4002#128 = .error (.reservedBits 1) := by decide
theorem test_decode_reserved_kind_V15 : decode 0x0000000012345678_00000000_00000030#128 = .error .reservedKind := by decide
theorem test_encode_fill_V73 : encode (.fill 0x12345678 4 .store 2 false) = 0x0000000012345678_00000000_00040091#128 := by
  decide
theorem test_decodeTableWord : decodeTableWord 128 0x0000000000000000_C0000000_00003006 = some (.slotWrite 6 0xC0000000) := by
  decide

-- TRANSLATE.
theorem test_translate_V11 : answer (.translate 0xFFFFFFFFFFFFFFFF .store 5) (start) =
    some (.outcome (.matched 0xFFFFFFFF ⟨true, true, true⟩)) := by decide
theorem test_translate_failure_is_data : answer (.translate 0x1000 .load 0) (start (.always (.fail .invalid))) =
    some (.outcome (.fail .invalid)) := by decide

-- FILL.
theorem test_fill_V24 : registered (.fill 0xFFFFFFFF80000010 2 .fetch 0 true) (start) =
    [⟨0xFFFFFFFF80000000, 0x80000000, ⟨true, true, true⟩, 0, 0x4000⟩] := by decide
theorem test_fill_V26 : faultOf (exec (.fill 0x1000 4 .store 0 false) (start (.always (.fail .dirty)))) =
    some (.mmuFault ⟨0x1000, 1, .dirty⟩) := by decide

-- PSW_READ, PSW_WRITE.
theorem test_pswRead_V50 : answer .pswRead ((start).setSlot 7 0x00000001) = some (.psw 0x80000000) := by decide
theorem test_pswRead_V51 : answer .pswRead ((start).setSlot 0 0x7FFFFFFF) = some (.psw 0x00000000) := by decide
theorem test_pswWrite_slots_V49c : (after (exec (.pswWrite 0x12345678) (start))).map (·.usb) =
    some #v[0, 0x80000000, 0, 0, 0x80000000, 0, 0, 0] := by decide
theorem test_pswWrite_mode_V46 : (after (exec (.pswWrite 0x02ABCDEF) (start))).map (·.fp) =
    some ⟨.down, true, true, true⟩ := by decide

-- SLOT_READ, SLOT_WRITE, RAW_WRITE.
theorem test_slotRead_V58 : answer (.slotRead 2) ((start).setSlot 2 0xDEADBEEF) = some (.slot 0xDEADBEEF) := by decide
theorem test_slotWrite_R166 : (after (exec (.slotWrite 0 0x80000000) (start))).map (fun t => (t.usb[0], t.pswRaw, t.fp.rm)) =
    some (0x80000000, 0, .nearestEven) := by decide
theorem test_rawWrite_P4 : (after (exec (.rawWrite 0x03000000) (start))).map (fun t => (t.pswRaw, t.fp.rm)) =
    some (0x03000000, .nearestEven) := by decide

-- FPU_SYNC, FPCTX_READ.
theorem test_fpuSync_V65 : (after (exec .fpuSync ((start).setRaw 0x02000000))).map (·.fp.rm) = some .down := by decide
theorem test_fpuSync_V66 : (after (exec .fpuSync ((start).setSlot 0 0x80000000))).map (·.fp.rm) = some .nearestEven := by
  decide
theorem test_fpctxRead_V61 : answer .fpctxRead { start with fp := ⟨.up, true, true, true⟩ } = some (.fpCode 0x1D) := by decide
theorem test_fpctxRead_flags : answer .fpctxRead { start with fp := ⟨.towardZero, true, false, false⟩ } =
    some (.fpCode 0b00111) := by decide

-- The step, and the assembler (P2, V73).
theorem test_step_runs_the_word : (after (step ((start).withFetchWord 128 0x00000000_C0000000_00003006))).map (·.usb[6]) =
    some 0xC0000000 := by decide
theorem test_step_refuses : refusalOf (step ((start).withFetchWord 128 0xF)) = some (.illegalCommand (.reservedOp 15)) := by
  decide
theorem test_assemble_P2 : assemble "SLOT_WRITE 6, 0xC0000000" = some 0x0000000000000000_C0000000_00003006#128 := by decide
theorem test_assemble_V73 :
    assemble "FILL 0x12345678, 4, STORE, 2, NOPROBE" = some 0x0000000012345678_00000000_00040091#128 := by decide

-- Log 12: blanks around an operand are ignored, a blank inside one makes the line no command.
theorem test_assemble_blanks : assemble "  SLOT_WRITE   6 ,  0xC0000000 " = some 0x0000000000000000_C0000000_00003006#128 ∧
    assemble "PSW_WRITE 1 2" = none ∧ assemble "PSW_WRITE 0x C0" = none ∧ assemble "SLOT_WRITE 6," = none := by decide

-- Witnesses: for each statement with hypotheses, a state and operands that meet all of them, at the ends of its ranges.
theorem witness_ResetHasTheEffectOfPswWrite :
    (0 : Fin 8).val < 7 ∧ (6 : Fin 8).val < 7 ∧ (0x00000B80 : Word).extractLsb' 24 8 = 0#8 := by decide
theorem witness_TranslateAnswersTheOutcome : AccessKind.fetch ≠ .reserved := by decide
theorem witness_TranslateIsTheIdentityOnHardware : AccessKind.load ≠ .reserved ∧ OnHardware (start) := by decide
theorem witness_TranslateAnswersTheSameAfterAnyRun :
    Sys2Proof.core.run 1 ((start).withFetchWord 128 0x3) =
      .next (((((start).setSlots (unpackPsw 0)).setRaw 0).syncFp).respond .done) ∧ AccessKind.store ≠ .reserved :=
  ⟨rfl, by decide⟩
theorem witness_FillRegistersThePageOnMatch : AccessKind.load ≠ .reserved ∧
    Translator.apply (start (.identityWith ⟨true, false, false⟩) 12).cfg.translator 0x5000
      (if AccessKind.load = .store then .store else .load) 0 = .matched 0x5000 ⟨true, false, false⟩ := by decide
theorem witness_FillAlwaysSucceedsOnHardware : AccessKind.store ≠ .reserved ∧ OnHardware (start .identity 0) := by decide
theorem witness_ProbeFailureAnswersFalse : AccessKind.load ≠ .reserved ∧
    Translator.apply (start (.always (.fail .noMatch))).cfg.translator 0x12345678
      (if AccessKind.load = .store then .store else .load) 0 = .fail .noMatch := by decide
theorem witness_NonProbeFailureRaisesTheMmuFault : AccessKind.store ≠ .reserved ∧
    Translator.apply (start (.override 0x1000 .store 0 (.fail .dirty) .identity)).cfg.translator 0x1000
      (if AccessKind.store = .store then .store else .load) 0 = .fail .dirty := by decide
theorem witness_OnlyAFailingFillFaults :
    exec (.fill 0x2000 4 .store 1 false) (start (.always (.fail .noMatch))) = .fault (.mmuFault ⟨0x2000, 1, .noMatch⟩) ∧
    (((start).withFetchWord 128 0x9).commands = 0x9#128 :: [] ∧ decode 0x9#128 = .error (.reservedOp 9)) ∧
    OnHardware (start) := ⟨rfl, by decide, by decide⟩
theorem witness_OutcomeCodesAreTheSpecs : outcomeCode (.fail .dirty) = outcomeCode (.fail .dirty) ∧
    outcomeCode (.matched 0 fullPerms) = outcomeCode (.matched 1 fullPerms) := ⟨rfl, rfl⟩
theorem witness_AddressOperationsReadOnlyTheConfiguration :
    (start).cfg = ((start).setRaw 5).cfg ∧ AccessKind.load ≠ .reserved := by decide
theorem witness_PswReadPacksTheSlots : (0 : Nat) < 24 ∧ (23 : Nat) < 24 ∧ (0 : Fin 8).val < 7 ∧ (6 : Fin 8).val < 7 := by
  decide
theorem witness_PswBitsAreIndependent : (0 : Fin 8) ≠ 7 := by decide
theorem witness_SlotSignsFollowTheWrittenPsw : (0 : Fin 8).val < 7 ∧ (6 : Fin 8).val < 7 := by decide
theorem witness_SlotWriteChangesItsSlotAlone : (7 : Fin 8) ≠ 0 := by decide
theorem witness_SlotWriteShowsAsOneBitOfThePsw : (31 : Nat) < 32 ∧ 31 ≠ 24 + (0 : Fin 8).val ∧ 0 ≠ 24 + (7 : Fin 8).val := by
  decide
theorem witness_RawWriteReachesTheLowBitsAtOnceAndTheModeAtSync : (23 : Nat) < 24 ∧ (24 : Nat) ≤ 24 := by decide
theorem witness_FpuSyncDerivesTheContextFromTheStoredWord :
    ((start).setRaw 0xFCFFFFFF).pswRaw.extractLsb' 24 2 = 0b00#2 ∧
    ((start).setRaw 0x01000000).pswRaw.extractLsb' 24 2 = 0b01#2 ∧
    ((start).setRaw 0x02000000).pswRaw.extractLsb' 24 2 = 0b10#2 ∧
    ((start).setRaw 0xFFFFFFFF).pswRaw.extractLsb' 24 2 = 0b11#2 := by decide
theorem witness_EachElementHasItsWriters :
    (∃ t, exec (.rawWrite 1) (start) = .next t ∧ t.pswRaw ≠ (start).pswRaw) ∧
    (∃ t, exec (.slotWrite 7 1) (start) = .next t ∧ t.usb[7] ≠ (start).usb[7]) ∧
    (∃ t, exec (.pswWrite 0x03000000) (start) = .next t ∧ t.fp ≠ (start).fp) ∧
    (∃ t, exec (.fill 0 0 .load 0 false) (start) = .next t ∧ t.registrations ≠ (start).registrations) :=
  ⟨⟨_, rfl, by decide⟩, ⟨_, rfl, by decide⟩, ⟨_, rfl, by decide⟩, ⟨_, rfl, by decide⟩⟩
theorem witness_EveryOperationCompletesOnHardware :
    Instr.wellFormed (.fill 0 0 .fetch 15 false) = true ∧ OnHardware (start) := by decide
theorem witness_LegalProgramsRunToTheirEndOnHardware : OnHardware ((start).withFetchWord 128 0x8) ∧
    ∀ c ∈ ((start).withFetchWord 128 0x8).commands, ∃ i, decode c = .ok i := by
  refine ⟨by decide, fun c hc => ⟨.fpctxRead, ?_⟩⟩
  rw [List.mem_singleton.mp hc]
  decide
theorem witness_NoRunFaultsOnHardware : OnHardware ((start).withFetchWord 128 0xF) := by decide
theorem witness_NoRunChangesTheConfiguration : Sys2Proof.core.run 1 ((start).withFetchWord 128 0x4) =
    .next ((start).syncFp.respond .done) := rfl
theorem witness_StepKeepsEveryRegistration : ∃ t, step ((start).withFetchWord 128 0x1) = .next t := ⟨_, rfl⟩
theorem witness_EveryStepKeepsTheInvariant :
    MachineInv ((start).withFetchWord 128 0x1) ∧ ∃ t, step ((start).withFetchWord 128 0x1) = .next t :=
  ⟨⟨by decide, by intro m hm; exact absurd hm List.not_mem_nil, by intro _ m hm; exact absurd hm List.not_mem_nil⟩, _, rfl⟩
theorem witness_SlotsHoldTheLastWrittenPsw :
    SlotsHold 0 ((start).withFetchWord 128 0x80000000_00000003) ∧
    (∀ c ∈ ((start).withFetchWord 128 0x80000000_00000003).commands, isSlotWrite c = false) ∧
    ∃ t, Sys2Proof.core.run 1 ((start).withFetchWord 128 0x80000000_00000003) = .next t :=
  ⟨fun i => by fin_cases i <;> rfl, fun c hc => by rw [List.mem_singleton.mp hc]; decide, _, rfl⟩
theorem witness_StepRunsTheDecodedCommand : ((start).withFetchWord 128 0x2).commands = 0x2#128 :: [] ∧
    decode 0x2#128 = .ok .pswRead := by decide
theorem witness_StepIsIdleWithoutACommand : (start).commands = [] := rfl
theorem witness_StepTakesCommandsInOrder : ∃ t, step { start with commands := [0x2#128, 0x8#128] } = .next t := ⟨_, rfl⟩
theorem witness_OpcodeTableRowsDecode :
    AccessKind.fetch ≠ .reserved ∧ AccessKind.fetch.code = (0x20#128).extractLsb' 4 2 ∧ 0x20#128 &&& 0xC00F#128 = 0x0#128 ∧
    AccessKind.store.code = (0xFFFF3FD1#128).extractLsb' 4 2 ∧ 0xFFFF3FD1#128 &&& 0xC00F#128 = 0x1#128 ∧
    0x3802#128 &&& 0xC00F#128 = 0x2#128 ∧ 0x3#128 &&& 0xC00F#128 = 0x3#128 ∧ 0x4#128 &&& 0xC00F#128 = 0x4#128 ∧
    0x3805#128 &&& 0xC00F#128 = 0x5#128 ∧ 0x6#128 &&& 0xC00F#128 = 0x6#128 ∧ 0x7#128 &&& 0xC00F#128 = 0x7#128 ∧
    0x8#128 &&& 0xC00F#128 = 0x8#128 := by decide
theorem witness_DecodeRefusesExactlyTheIllegalWords :
    (((start).withFetchWord 128 0x30).commands = 0x30#128 :: [] ∧ decode 0x30#128 = .error .reservedKind) ∧
    decode 0x2#128 = .ok .pswRead ∧
    0x0000000000000000_FFFFFFFF_00003802#128 &&& usedBits .pswRead = 0x2#128 &&& usedBits .pswRead := by decide
theorem witness_DecodeOfEncode : Instr.wellFormed (.translate 0xFFFFFFFFFFFFFFFF .store 15) = true := by decide
theorem witness_EncodeOfDecode : decode 0xFFFFFFFFFFFFFFFF_FFFFFFFF_FFFF3FDF#128 = .error (.reservedOp 15) ∧
    decode 0xFFFFFFFFFFFFFFFF_FFFFFFFF_FFFF3FE1#128 = .ok (.fill 0xFFFFFFFFFFFFFFFF 0xFFFF .fetch 15 true) := by decide
theorem witness_AssemblerLineRoundTrip : Instr.wellFormed (.fill 0xFFFFFFFFFFFFFFFF 0xFFFF .store 15 true) = true := by decide

end Sys2Proof.Tests
end

/-! Which operation writes which element of the state (10_state.md section 5), and what no run changes (R28). -/

namespace Sys2Proof.Machine

theorem step_of_commands_eq_nil {s : State} (h : s.commands = []) : step s = .next s := by
  rcases takeCommand_eq s with ⟨-, ht⟩ | ⟨c, rest, hc, -⟩
  · rw [step, ht]
  · rw [h] at hc
    cases hc

/-- Settles O35: the command list offers nothing to take. -/
theorem stepIsIdleWithoutACommand : Obligations.StepIsIdleWithoutACommand :=
  fun _ => step_of_commands_eq_nil

theorem step_next_cfg {s s' : State} (h : step s = .next s') : s'.cfg = s.cfg := by
  obtain ⟨-, rfl⟩ | ⟨c, rest, i, -, -, hexec⟩ := step_next h
  · rfl
  · exact (exec_next_cfg_commands hexec).1

/-- Settles O30, by the induction over runs with "the configuration is that of `s`" as the invariant. -/
theorem noRunChangesTheConfiguration : Obligations.NoRunChangesTheConfiguration := by
  intro n s s' hrun
  exact run_induction (P := fun u => u.cfg = s.cfg) (fun _ _ hu hstep => (step_next_cfg hstep).trans hu) n s s' rfl hrun

/-- Everything an operation that completes does: it leaves a response, after writing nothing or, where it is one of the five
writers of 10_state.md section 5, its own elements. -/
theorem exec_next_writes {i : Instr} {s t : State} (h : exec i s = .next t) :
    ∃ (u : State) (r : Response), t = u.respond r ∧
      (u = s ∨
        (∃ va size kind regime probe m, i = .fill va size kind regime probe ∧ u = s.register m) ∨
        (∃ d, i = .pswWrite d ∧ u = ((s.setSlots (unpackPsw d)).setRaw d).syncFp) ∨
        (i = .fpuSync ∧ u = s.syncFp) ∨
        (∃ k d, i = .slotWrite k d ∧ u = s.setSlot k d) ∨
        (∃ d, i = .rawWrite d ∧ u = s.setRaw d)) := by
  cases i with
  | translate va kind regime =>
    obtain ⟨-, ht⟩ := execTranslate_next h
    exact ⟨s, _, ht, .inl rfl⟩
  | fill va size kind regime probe =>
    obtain ⟨-, ⟨pa, perms, -, ht⟩ | ⟨k, -, -, ht⟩⟩ := execFill_next h
    · exact ⟨_, _, ht, .inr (.inl ⟨va, size, kind, regime, probe, _, rfl, rfl⟩)⟩
    · exact ⟨s, _, ht, .inl rfl⟩
  | pswRead =>
    injection h with h
    exact ⟨s, _, h.symm, .inl rfl⟩
  | pswWrite d =>
    injection h with h
    exact ⟨_, _, h.symm, .inr (.inr (.inl ⟨d, rfl, rfl⟩))⟩
  | fpuSync =>
    injection h with h
    exact ⟨_, _, h.symm, .inr (.inr (.inr (.inl ⟨rfl, rfl⟩)))⟩
  | slotRead k =>
    injection h with h
    exact ⟨s, _, h.symm, .inl rfl⟩
  | slotWrite k d =>
    injection h with h
    exact ⟨_, _, h.symm, .inr (.inr (.inr (.inr (.inl ⟨k, d, rfl, rfl⟩))))⟩
  | rawWrite d =>
    injection h with h
    exact ⟨_, _, h.symm, .inr (.inr (.inr (.inr (.inr ⟨d, rfl, rfl⟩))))⟩
  | fpctxRead =>
    injection h with h
    exact ⟨s, _, h.symm, .inl rfl⟩

/-- Writing a slot leaves every other slot (R114). -/
theorem State.setSlot_usb_of_ne (s : State) {k j : Fin 8} (d : Word) (h : j ≠ k) :
    (s.setSlot k d).usb[j] = s.usb[j] := by
  have hval : k.val ≠ j.val := fun he => h (Fin.ext he.symm)
  exact Vector.getElem_set_ne k.isLt j.isLt hval

/-- Settles O26: each of the five writers is named for the elements it writes, and every other element is as it was. -/
theorem eachElementHasItsWriters : Obligations.EachElementHasItsWriters := by
  intro i s t h
  obtain ⟨hcfg, hcommands⟩ := exec_next_cfg_commands h
  obtain ⟨u, r, rfl, hu⟩ := exec_next_writes h
  have hrest : (u.respond r).cfg = s.cfg ∧ (u.respond r).commands = s.commands ∧ (u.respond r).response ≠ none :=
    ⟨hcfg, hcommands, Option.some_ne_none r⟩
  obtain rfl | ⟨va, size, kind, regime, probe, m, rfl, rfl⟩ | ⟨d, rfl, rfl⟩ | ⟨rfl, rfl⟩ | ⟨k, d, rfl, rfl⟩ |
    ⟨d, rfl, rfl⟩ := hu
  · exact ⟨fun hraw => absurd rfl hraw, fun _ husb => absurd rfl husb, fun hfp => absurd rfl hfp,
      fun hreg => absurd rfl hreg, hrest⟩
  · exact ⟨fun hraw => absurd rfl hraw, fun _ husb => absurd rfl husb, fun hfp => absurd rfl hfp,
      fun _ => ⟨va, size, kind, regime, probe, rfl⟩, hrest⟩
  · exact ⟨fun _ => ⟨d, .inl rfl⟩, fun _ _ => ⟨d, .inl rfl⟩, fun _ => .inr ⟨d, rfl⟩,
      fun hreg => absurd rfl hreg, hrest⟩
  · exact ⟨fun hraw => absurd rfl hraw, fun _ husb => absurd rfl husb, fun _ => .inl rfl,
      fun hreg => absurd rfl hreg, hrest⟩
  · have hslot : ∀ j : Fin 8, (s.setSlot k d).usb[j] ≠ s.usb[j] → j = k := fun j hne =>
      not_imp_comm.mp (s.setSlot_usb_of_ne d) hne
    exact ⟨fun hraw => absurd rfl hraw, fun j husb => ⟨d, .inr (by rw [hslot j husb])⟩, fun hfp => absurd rfl hfp,
      fun hreg => absurd rfl hreg, hrest⟩
  · exact ⟨fun _ => ⟨d, .inr rfl⟩, fun _ husb => absurd rfl husb, fun hfp => absurd rfl hfp,
      fun hreg => absurd rfl hreg, hrest⟩

end Sys2Proof.Machine

/-! R24's conditional invariant: without SLOT_WRITE the slots hold the last value given to PSW_WRITE. -/

namespace Sys2Proof.Machine

theorem isSlotWrite_of_decode {c : Command} {k : Fin 8} {d : Word} (h : decode c = .ok (.slotWrite k d)) :
    isSlotWrite c = true := by
  simp [isSlotWrite, h]

@[simp] theorem lastWrittenPsw_nil (v : Word) : lastWrittenPsw v [] = v := rfl

/-- The last written PSW of `c :: cs` is that of `cs`, from the one `c` leaves. -/
theorem lastWrittenPsw_cons (v : Word) (c : Command) (cs : List Command) :
    lastWrittenPsw v (c :: cs) = lastWrittenPsw (lastWrittenPsw v [c]) cs := rfl

theorem lastWrittenPsw_singleton_of_pswWrite (v : Word) {c : Command} {d : Word} (h : decode c = .ok (.pswWrite d)) :
    lastWrittenPsw v [c] = d := by
  simp [lastWrittenPsw, h]

theorem lastWrittenPsw_singleton_of_ne_pswWrite (v : Word) {c : Command} {i : Instr} (h : decode c = .ok i)
    (hi : ∀ d, i ≠ .pswWrite d) : lastWrittenPsw v [c] = v := by
  cases i with
  | pswWrite d => exact absurd rfl (hi d)
  | _ => simp [lastWrittenPsw, h]

/-- A PSW_WRITE makes the slots hold its value, whatever they held before (R24, R112). -/
theorem slotsHold_of_pswWrite {d : Word} {s t : State} (h : exec (.pswWrite d) s = .next t) : SlotsHold d t := by
  injection h with h
  subst h
  intro i
  change ((unpackPsw d)[i]).getLsbD 31 = _
  rw [unpackPsw_slot]
  cases d.getLsbD (24 + i.val) <;> rfl

/-- An operation that is no writer of the slots leaves them holding what they held. -/
theorem SlotsHold.of_exec_next {i : Instr} {s t : State} {v : Word} (hs : SlotsHold v s) (h : exec i s = .next t)
    (hpsw : ∀ d, i ≠ .pswWrite d) (hslot : ∀ k d, i ≠ .slotWrite k d) : SlotsHold v t := by
  obtain ⟨-, husb, -⟩ := eachElementHasItsWriters i s t h
  intro k
  have hkept : t.usb[k] = s.usb[k] := by
    by_contra hne
    obtain ⟨d, hd | hd⟩ := husb k hne
    · exact hpsw d hd
    · exact hslot k d hd
  rw [hkept]
  exact hs k

theorem step_next_commands {s s' : State} (h : step s = .next s') : s'.commands = s.commands.tail := by
  obtain ⟨hnil, rfl⟩ | ⟨c, rest, i, hc, -, hexec⟩ := step_next h
  · rw [hnil, List.tail_nil]
  · rw [hc, List.tail_cons]
    exact (exec_next_cfg_commands hexec).2

/-- One step keeps R24's invariant, for the value its command leaves as the last written one. -/
theorem SlotsHold.of_step_next {v : Word} {s s' : State} (hs : SlotsHold v s)
    (hcmds : ∀ c ∈ s.commands, isSlotWrite c = false) (h : step s = .next s') :
    SlotsHold (lastWrittenPsw v (s.commands.take 1)) s' := by
  obtain ⟨hnil, rfl⟩ | ⟨c, rest, i, hc, hdec, hexec⟩ := step_next h
  · rwa [hnil, List.take_nil, lastWrittenPsw_nil]
  · rw [hc, List.take_succ_cons, List.take_zero]
    by_cases hpsw : ∃ d, i = .pswWrite d
    · obtain ⟨d, rfl⟩ := hpsw
      rw [lastWrittenPsw_singleton_of_pswWrite v hdec]
      exact slotsHold_of_pswWrite hexec
    · have hne : ∀ d, i ≠ .pswWrite d := fun d hd => hpsw ⟨d, hd⟩
      have hslot : ∀ k d, i ≠ .slotWrite k d := by
        rintro k d rfl
        have hfalse : isSlotWrite c = false := hcmds c (hc ▸ List.mem_cons_self)
        exact Bool.false_ne_true (hfalse.symm.trans (isSlotWrite_of_decode hdec))
      rw [lastWrittenPsw_singleton_of_ne_pswWrite v hdec hne]
      exact SlotsHold.of_exec_next (s := { s with commands := rest }) hs hexec hne hslot

/-- A run that answers a state has a first step that does, and goes on from there. -/
theorem run_succ_next {n : Nat} {s s' : State} (h : Sys2Proof.core.run (n + 1) s = .next s') :
    ∃ u, step s = .next u ∧ Sys2Proof.core.run n u = .next s' := by
  rw [run_succ] at h
  cases hst : step s with
  | next u =>
    rw [hst] at h
    exact ⟨u, rfl, h⟩
  | fault f => rw [hst] at h; cases h
  | refused r => rw [hst] at h; cases h

/-- The last written PSW of `n + 1` commands, by the first of them and the `n` after it. -/
theorem lastWrittenPsw_take_succ (v : Word) (cs : List Command) (n : Nat) :
    lastWrittenPsw v (cs.take (n + 1)) = lastWrittenPsw (lastWrittenPsw v (cs.take 1)) (cs.tail.take n) := by
  cases cs with
  | nil => simp
  | cons c cs => simp [lastWrittenPsw_cons v c (cs.take n)]

/-- Settles O33, by induction on the length of the run, for every starting value of the slots. -/
theorem slotsHoldTheLastWrittenPsw : Obligations.SlotsHoldTheLastWrittenPsw := by
  intro n
  induction n with
  | zero =>
    intro v s s' hs _ hrun
    rw [run_zero] at hrun
    injection hrun with hrun
    exact hrun ▸ hs
  | succ n ih =>
    intro v s s' hs hcmds hrun
    obtain ⟨u, hstep, hrest⟩ := run_succ_next hrun
    have hu : u.commands = s.commands.tail := step_next_commands hstep
    rw [lastWrittenPsw_take_succ, ← hu]
    refine ih _ u s' (hs.of_step_next hcmds hstep) (fun c hc => hcmds c ?_) hrest
    exact List.mem_of_mem_tail (hu ▸ hc)

end Sys2Proof.Machine

/-! The order of commands and of registrations (20_memory.md), and what the address operations TRANSLATE and FILL read. -/

namespace Sys2Proof.Machine

/-- Settles O36: the state after a step holds the commands after the one it took. -/
theorem stepTakesCommandsInOrder : Obligations.StepTakesCommandsInOrder :=
  fun _ _ => step_next_commands

/-- An operation that completes keeps every registration, and adds one only where it is a FILL (R56, R93). -/
theorem exec_next_registrations {i : Instr} {s t : State} (h : exec i s = .next t) :
    t.registrations = s.registrations ∨
      ∃ m va size kind regime probe,
        t.registrations = s.registrations ++ [m] ∧ i = .fill va size kind regime probe := by
  obtain ⟨u, r, rfl, hu⟩ := exec_next_writes h
  rw [State.respond_registrations]
  obtain rfl | ⟨va, size, kind, regime, probe, m, rfl, rfl⟩ | ⟨d, -, rfl⟩ | ⟨-, rfl⟩ | ⟨k, d, -, rfl⟩ |
    ⟨d, -, rfl⟩ := hu
  · exact .inl rfl
  · exact .inr ⟨m, va, size, kind, regime, probe, s.register_registrations m, rfl⟩
  · exact .inl rfl
  · exact .inl rfl
  · exact .inl rfl
  · exact .inl rfl

/-- Settles O31: an idle step leaves the registrations, and any other one does to them what its operation does. -/
theorem stepKeepsEveryRegistration : Obligations.StepKeepsEveryRegistration := by
  intro s s' h
  obtain ⟨-, rfl⟩ | ⟨c, rest, i, hc, hdec, hexec⟩ := step_next h
  · exact .inl rfl
  · obtain hkept | ⟨m, va, size, kind, regime, probe, hadded, rfl⟩ := exec_next_registrations hexec
    · exact .inl hkept
    · exact .inr ⟨m, c, va, size, kind, regime, probe, hadded, by rw [hc, List.head?_cons], hdec⟩

/-- A TRANSLATE of a legal kind completes, whatever the outcome (R81). -/
theorem exec_translate_of_legal {kind : AccessKind} (hkind : kind ≠ .reserved) (va : VAddr) (regime : Regime)
    (s : State) :
    exec (.translate va kind regime) s = .next (s.respond (.outcome (s.translate va kind regime))) :=
  if_neg hkind

/-- A FILL whose translation matches registers the page and answers `true`, probing or not (R93). -/
theorem exec_fill_of_matched {kind : AccessKind} (hkind : kind ≠ .reserved) {va : VAddr} {regime : Regime} {s : State}
    {pa : PAddr} {perms : Perms} (h : s.fillOutcome va kind regime = .matched pa perms) (size : BitVec 16)
    (probe : Bool) :
    exec (.fill va size kind regime probe) s =
      .next ((s.register (s.registrationFor va regime pa perms)).respond (.filled true)) := by
  change execFill va size kind regime probe s = _
  rw [execFill, if_neg hkind, h]

/-- A FILL whose translation fails answers `false` where it probes, and raises the fault where it does not (R95, R96). -/
theorem exec_fill_of_fail {kind : AccessKind} (hkind : kind ≠ .reserved) {va : VAddr} {regime : Regime} {s : State}
    {k : FailKind} (h : s.fillOutcome va kind regime = .fail k) (size : BitVec 16) (probe : Bool) :
    exec (.fill va size kind regime probe) s =
      if probe then .next (s.respond (.filled false)) else raiseMmuFault (faultDescriptor va kind k) := by
  change execFill va size kind regime probe s = _
  rw [execFill, if_neg hkind, h]

section SameConfiguration
variable {s s' : State} (hcfg : s.cfg = s'.cfg)
include hcfg

theorem State.translate_congr (va : VAddr) (kind : AccessKind) (regime : Regime) :
    s.translate va kind regime = s'.translate va kind regime := by
  rw [State.translate, State.translate, hcfg]

theorem State.fillOutcome_congr (va : VAddr) (kind : AccessKind) (regime : Regime) :
    s.fillOutcome va kind regime = s'.fillOutcome va kind regime :=
  State.translate_congr hcfg va _ regime

theorem State.registrationFor_congr (va : VAddr) (regime : Regime) (pa : PAddr) (perms : Perms) :
    s.registrationFor va regime pa perms = s'.registrationFor va regime pa perms := by
  rw [State.registrationFor, State.registrationFor, hcfg]

/-- TRANSLATE answers the same in two states of one configuration (R82). -/
theorem exec_translate_congr {kind : AccessKind} (hkind : kind ≠ .reserved) (va : VAddr) (regime : Regime) :
    ∃ r, exec (.translate va kind regime) s = .next (s.respond r) ∧
      exec (.translate va kind regime) s' = .next (s'.respond r) := by
  refine ⟨_, exec_translate_of_legal hkind va regime s, ?_⟩
  rw [State.translate_congr hcfg]
  exact exec_translate_of_legal hkind va regime s'

end SameConfiguration

/-- A response alone issues no registration. -/
theorem State.respond_eq_append_nil (s : State) (r : Response) :
    s.respond r = { s with registrations := s.registrations ++ [], response := some r } := by
  rw [List.append_nil]
  rfl

/-- Settles O13: one configuration gives one outcome of the translation in both states, and each outcome decides what a FILL
registers, answers or raises. -/
theorem addressOperationsReadOnlyTheConfiguration : Obligations.AddressOperationsReadOnlyTheConfiguration := by
  intro va size size' kind regime probe s s' hcfg hkind
  refine ⟨exec_translate_congr hcfg hkind va regime, ?_⟩
  have hsame : s'.fillOutcome va kind regime = s.fillOutcome va kind regime :=
    State.fillOutcome_congr hcfg.symm va kind regime
  cases hout : s.fillOutcome va kind regime with
  | matched pa perms =>
    refine .inl ⟨[s.registrationFor va regime pa perms], .filled true, exec_fill_of_matched hkind hout size probe, ?_⟩
    rw [State.registrationFor_congr hcfg]
    exact exec_fill_of_matched hkind (hsame.trans hout) size' probe
  | fail k =>
    have hs := exec_fill_of_fail hkind hout size probe
    have hs' := exec_fill_of_fail hkind (hsame.trans hout) size' probe
    cases probe with
    | true =>
      exact .inl ⟨[], .filled false, hs.trans (congrArg _ (s.respond_eq_append_nil _)),
        hs'.trans (congrArg _ (s'.respond_eq_append_nil _))⟩
    | false => exact .inr ⟨_, hs, hs'⟩

end Sys2Proof.Machine

/-! The decoder and the encoder of the command word agree (30_encoding.md R61 to R66). -/

namespace Sys2Proof

/-- The row of the operation map an instruction belongs to, and its operands at the fields of the word (R61, R63): the word's
`op` selects the instruction's operation, and every field that operation uses holds the instruction's operand. -/
def Command.Spells (c : Command) : Instr → Prop
  | .translate vaddr kind regime => c.op = 0x0 ∧ c.vaddr = vaddr ∧ c.kind = kind.code ∧ c.regime = regime
  | .fill vaddr size kind regime probe => c.op = 0x1 ∧ c.vaddr = vaddr ∧ c.size = size ∧ c.kind = kind.code ∧
      c.regime = regime ∧ c.probe = BitVec.ofBool probe
  | .pswRead => c.op = 0x2
  | .pswWrite data => c.op = 0x3 ∧ c.data = data
  | .fpuSync => c.op = 0x4
  | .slotRead slot => c.op = 0x5 ∧ c.slot = fieldOfSlot slot
  | .slotWrite slot data => c.op = 0x6 ∧ c.slot = fieldOfSlot slot ∧ c.data = data
  | .rawWrite data => c.op = 0x7 ∧ c.data = data
  | .fpctxRead => c.op = 0x8

@[simp] theorem ofBool_beq_one : ∀ b : BitVec 1, BitVec.ofBool (b == 1#1) = b := by decide

/-- A word decodes to the instruction it spells, where its reserved bits are 0 and the kind is legal (R61 to R66). -/
theorem decode_of_spells {c : Command} {i : Instr} (hrsv : c.rsv = 0) (hwf : i.wellFormed = true) (h : c.Spells i) :
    decode c = .ok i := by
  rw [decode, if_pos hrsv, decodeOp]
  cases i with
  | translate vaddr kind regime =>
    obtain ⟨hop, rfl, hkind, rfl⟩ := h
    rw [hop, hkind, AccessKind.ofCode_code]
    exact if_pos hwf
  | fill vaddr size kind regime probe =>
    obtain ⟨hop, rfl, rfl, hkind, rfl, hprobe⟩ := h
    rw [hop, hkind, AccessKind.ofCode_code, hprobe]
    cases probe <;> exact if_pos hwf
  | pswRead | fpuSync | fpctxRead =>
    rw [show c.op = _ from h]
    rfl
  | pswWrite data | rawWrite data =>
    obtain ⟨hop, rfl⟩ := h
    rw [hop]
    rfl
  | slotRead slot =>
    obtain ⟨hop, hslot⟩ := h
    rw [hop, hslot]
    rfl
  | slotWrite slot data =>
    obtain ⟨hop, hslot, rfl⟩ := h
    rw [hop, hslot]
    rfl

/-- Everything a word that decodes gives, in terms of the instruction it decodes to. -/
theorem spells_of_decode {c : Command} {i : Instr} (h : decode c = .ok i) :
    c.rsv = 0 ∧ i.wellFormed = true ∧ c.Spells i := by
  obtain ⟨hrsv, hwf, hrow⟩ := decode_ok_cases h
  refine ⟨hrsv, hwf, ?_⟩
  obtain ⟨hop, rfl⟩ | ⟨hop, rfl⟩ | ⟨hop, rfl⟩ | ⟨hop, rfl⟩ | ⟨hop, rfl⟩ | ⟨hop, rfl⟩ | ⟨hop, rfl⟩ | ⟨hop, rfl⟩ |
    ⟨hop, rfl⟩ := hrow <;> simp [Command.Spells, hop]

theorem encode_rsv (i : Instr) : (encode i).rsv = 0 := by
  cases i <;> exact rsv_commandWord ..

theorem encode_spells (i : Instr) : (encode i).Spells i := by
  cases i <;> simp [encode, Command.Spells]

/-- Settles O40: the encoding spells the instruction, and its reserved bits are 0. -/
theorem decodeOfEncode : Obligations.DecodeOfEncode :=
  fun i hwf => decode_of_spells (encode_rsv i) hwf (encode_spells i)

section Masks

variable (vaddr vaddr' : VAddr) (data data' : Word) (size size' : BitVec 16) (rsv rsv' : BitVec 2)
  (slot slot' : BitVec 3) (probe probe' : BitVec 1) (regime regime' : BitVec 4) (kind kind' : BitVec 2)
  (op op' : BitVec 4)

/-- A mask acts on a command word field by field. -/
theorem commandWord_and_commandWord :
    commandWord vaddr data size rsv slot probe regime kind op &&&
        commandWord vaddr' data' size' rsv' slot' probe' regime' kind' op' =
      commandWord (vaddr &&& vaddr') (data &&& data') (size &&& size') (rsv &&& rsv') (slot &&& slot')
        (probe &&& probe') (regime &&& regime') (kind &&& kind') (op &&& op') := by
  simp only [commandWord, ← BitVec.and_append]

theorem commandWord_inj :
    commandWord vaddr data size rsv slot probe regime kind op =
        commandWord vaddr' data' size' rsv' slot' probe' regime' kind' op' ↔
      vaddr = vaddr' ∧ data = data' ∧ size = size' ∧ rsv = rsv' ∧ slot = slot' ∧ probe = probe' ∧
        regime = regime' ∧ kind = kind' ∧ op = op' := by
  constructor
  · intro h
    have hfield {α : Type} (f : Command → α) := congrArg f h
    exact ⟨by simpa using hfield Command.vaddr, by simpa using hfield Command.data, by simpa using hfield Command.size,
      by simpa using hfield Command.rsv, by simpa using hfield Command.slot, by simpa using hfield Command.probe,
      by simpa using hfield Command.regime, by simpa using hfield Command.kind, by simpa using hfield Command.op⟩
  · rintro ⟨rfl, rfl, rfl, rfl, rfl, rfl, rfl, rfl, rfl⟩
    rfl

end Masks

/-- The used bits of an instruction as a command word: all ones in each field its operation uses, and in `op` and `rsv`
(the "used by" column of R61). -/
def usedFields : Instr → Command
  | .translate _ _ _ => commandWord (.allOnes _) 0 0 (.allOnes _) 0 0 (.allOnes _) (.allOnes _) (.allOnes _)
  | .fill _ _ _ _ _ => commandWord (.allOnes _) 0 (.allOnes _) (.allOnes _) 0 (.allOnes _) (.allOnes _) (.allOnes _) (.allOnes _)
  | .pswRead => commandWord 0 0 0 (.allOnes _) 0 0 0 0 (.allOnes _)
  | .pswWrite _ => commandWord 0 (.allOnes _) 0 (.allOnes _) 0 0 0 0 (.allOnes _)
  | .fpuSync => commandWord 0 0 0 (.allOnes _) 0 0 0 0 (.allOnes _)
  | .slotRead _ => commandWord 0 0 0 (.allOnes _) (.allOnes _) 0 0 0 (.allOnes _)
  | .slotWrite _ _ => commandWord 0 (.allOnes _) 0 (.allOnes _) (.allOnes _) 0 0 0 (.allOnes _)
  | .rawWrite _ => commandWord 0 (.allOnes _) 0 (.allOnes _) 0 0 0 0 (.allOnes _)
  | .fpctxRead => commandWord 0 0 0 (.allOnes _) 0 0 0 0 (.allOnes _)

theorem usedBits_eq_usedFields (i : Instr) : usedBits i = usedFields i := by
  cases i <;> rfl

theorem and_usedBits (c : Command) (i : Instr) :
    c &&& usedBits i =
      commandWord c.vaddr c.data c.size c.rsv c.slot c.probe c.regime c.kind c.op &&& usedFields i := by
  rw [commandWord_fields, usedBits_eq_usedFields]

/-- A word is, on the bits an instruction uses, the encoding of that instruction exactly when it spells the instruction and
its reserved bits are 0. -/
theorem encode_eq_and_usedBits_iff {c : Command} {i : Instr} :
    encode i = c &&& usedBits i ↔ c.rsv = 0 ∧ c.Spells i := by
  rw [and_usedBits]
  cases i <;>
    simp only [encode, usedFields, commandWord_and_commandWord, commandWord_inj, Command.Spells, BitVec.and_allOnes] <;>
    grind

theorem decode_eq_ok_iff {c : Command} {i : Instr} :
    decode c = .ok i ↔ i.wellFormed = true ∧ encode i = c &&& usedBits i := by
  rw [encode_eq_and_usedBits_iff]
  constructor
  · intro h
    obtain ⟨hrsv, hwf, hspells⟩ := spells_of_decode h
    exact ⟨hwf, hrsv, hspells⟩
  · rintro ⟨hwf, hrsv, hspells⟩
    exact decode_of_spells hrsv hwf hspells

/-- Settles O41: a word decodes to an instruction exactly when it is its encoding on the bits it uses. -/
theorem encodeOfDecode : Obligations.EncodeOfDecode :=
  fun _ _ => decode_eq_ok_iff.mp

theorem setWidth_op_eq_commandWord : ∀ op : BitVec 4, op.setWidth 128 = commandWord 0 0 0 0 0 0 0 0 op := by decide

/-- A word with `op` alone under the mask of `op` and `rsv` decodes to an instruction of that row whose operands are its
fields (R63). -/
theorem decode_of_row {c : Command} {i : Instr} (op : BitVec 4) (h : c &&& 0xC00F#128 = op.setWidth 128)
    (hwf : i.wellFormed = true) (hspells : c.op = op → c.Spells i) : decode c = .ok i := by
  have hmask : c &&& 0xC00F#128 = _ := and_usedBits c .pswRead
  rw [hmask, setWidth_op_eq_commandWord, usedFields, commandWord_and_commandWord, commandWord_inj] at h
  obtain ⟨-, -, -, hrsv, -, -, -, -, hop⟩ := h
  rw [BitVec.and_allOnes] at hrsv hop
  exact decode_of_spells hrsv hwf (hspells hop)

theorem Command.probe_eq_ofBool (c : Command) : c.probe = BitVec.ofBool (c.getLsbD 10) := by
  apply BitVec.eq_of_getLsbD_eq
  intro j hj
  obtain rfl : j = 0 := by omega
  simp [Command.probe]

/-- Settles O38: each row's word spells the row's instruction with the word's own fields. -/
theorem opcodeTableRowsDecode : Obligations.OpcodeTableRowsDecode := by
  intro c
  refine ⟨fun kind hkind hcode => ?_, fun h => decode_of_row 0x2 h rfl id,
    fun h => decode_of_row 0x3 h rfl fun hop => ⟨hop, rfl⟩, fun h => decode_of_row 0x4 h rfl id,
    fun h => ⟨slotOfField c.slot, rfl, decode_of_row 0x5 h rfl fun hop => ⟨hop, rfl⟩⟩,
    fun h => ⟨slotOfField c.slot, rfl, decode_of_row 0x6 h rfl fun hop => ⟨hop, rfl, rfl⟩⟩,
    fun h => decode_of_row 0x7 h rfl fun hop => ⟨hop, rfl⟩, fun h => decode_of_row 0x8 h rfl id⟩
  have hlegal : kind.legal = true := kind.legal_iff.mpr hkind
  exact ⟨fun h => decode_of_row 0x0 h hlegal fun hop => ⟨hop, rfl, hcode.symm, rfl⟩,
    fun h => decode_of_row 0x1 h hlegal fun hop => ⟨hop, rfl, rfl, hcode.symm, rfl, c.probe_eq_ofBool⟩⟩

theorem requireLegalKind_error_iff (i : Instr) : (∃ why, requireLegalKind i = .error why) ↔ i.wellFormed = false := by
  unfold requireLegalKind
  cases i.wellFormed <;> simp

theorem AccessKind.legal_ofCode_eq_false_iff (c : BitVec 2) : (AccessKind.ofCode c).legal = false ↔ c = 3#2 := by
  rw [AccessKind.legal_ofCode, decide_eq_false_iff_not, not_not]

/-- The grounds of R66 that the operation map answers: a reserved `op`, and the reserved kind. -/
theorem decodeOp_error_iff (c : Command) :
    (∃ why, decodeOp c = .error why) ↔ 9 ≤ c.op.toNat ∨ (c.op.toNat ≤ 1 ∧ c.kind = 3#2) := by
  unfold decodeOp
  split
  case h_1 hop | h_2 hop =>
    rw [requireLegalKind_error_iff, Instr.wellFormed, AccessKind.legal_ofCode_eq_false_iff, hop]
    simp
  case h_10 =>
    refine ⟨fun _ => .inl ?_, fun _ => ⟨_, rfl⟩⟩
    grind
  all_goals
    next hop => simp [hop]

theorem decode_error_iff (c : Command) : (∃ why, decode c = .error why) ↔
    9 ≤ c.op.toNat ∨ c.rsv ≠ 0#2 ∨ (c.op.toNat ≤ 1 ∧ c.kind = 3#2) := by
  rw [or_left_comm, ← decodeOp_error_iff]
  by_cases h : c.rsv = 0#2
  · simp [decode, h]
  · simp [decode, h]

end Sys2Proof

/-! What a step does with a word that decodes and with one that does not (R60, R66). -/

namespace Sys2Proof.Machine

theorem takeCommand_of_commands_eq_cons {s : State} {c : Command} {rest : List Command} (h : s.commands = c :: rest) :
    s.takeCommand = some (c, { s with commands := rest }) := by
  rw [State.takeCommand, h]

theorem step_of_decode_error {s : State} {c : Command} {rest : List Command} {why : IllegalCommand}
    (h : s.commands = c :: rest) (hdec : decode c = .error why) : step s = refuseCommand why := by
  simp only [step, takeCommand_of_commands_eq_cons h, hdec]

theorem step_of_decode_ok {s : State} {c : Command} {rest : List Command} {i : Instr}
    (h : s.commands = c :: rest) (hdec : decode c = .ok i) : step s = exec i { s with commands := rest } := by
  simp only [step, takeCommand_of_commands_eq_cons h, hdec]

/-- Settles O39: the grounds of R66 from the decoder's branches, and the ignored fields from the used bits. -/
theorem decodeRefusesExactlyTheIllegalWords : Obligations.DecodeRefusesExactlyTheIllegalWords := by
  refine ⟨decode_error_iff, fun c rest why s => step_of_decode_error, fun c c' i h hsame => ?_⟩
  obtain ⟨hwf, henc⟩ := decode_eq_ok_iff.mp h
  exact decode_eq_ok_iff.mpr ⟨hwf, henc.trans hsame.symm⟩

/-- Settles O34: a word that decodes is taken and run. -/
theorem stepRunsTheDecodedCommand : Obligations.StepRunsTheDecodedCommand :=
  fun _ _ _ _ => step_of_decode_ok

/-- Settles O37: the decoder evaluates on the eight words. -/
theorem specWordsDecode : Obligations.SpecWordsDecode := by
  refine ⟨?_, ?_, ?_, ?_, ?_, ?_, ?_, ?_⟩ <;> decide

end Sys2Proof.Machine

/-! The codes of the outcomes (R69) and the operands of the assembler (R75). -/

namespace Sys2Proof.Machine

/-- Settles O6: both operations check the kind before anything else (R81, R90). -/
theorem reservedKindIsRefused : Obligations.ReservedKindIsRefused :=
  fun _ _ _ _ _ => ⟨rfl, rfl⟩

theorem failCode_injective : Function.Injective failCode := by
  intro k k' h
  revert h
  cases k <;> cases k' <;> decide

theorem failCode_ne_zero (k : FailKind) : failCode k ≠ 0 := by
  cases k <;> decide

/-- Settles O12: a failure's code is not 0, and no two failure kinds share one. -/
theorem outcomeCodesAreTheSpecs : Obligations.OutcomeCodesAreTheSpecs := by
  refine ⟨fun _ _ => rfl, rfl, rfl, rfl, rfl, fun o o' h => ?_⟩
  cases o with
  | matched pa perms =>
    cases o' with
    | matched pa' perms' => exact .inr ⟨pa, perms, pa', perms', rfl, rfl⟩
    | fail k' => exact absurd h.symm (failCode_ne_zero k')
  | fail k =>
    cases o' with
    | matched pa' perms' => exact absurd h (failCode_ne_zero k)
    | fail k' => exact .inl (congrArg _ (failCode_injective h))

/-- A field's own value is an operand that fits it (R75). -/
theorem numberOperand_toNat {w : Nat} (x : BitVec w) : numberOperand w (some (.number x.toNat)) = some x := by
  simp [numberOperand, x.isLt]

theorem numberOperand_slot (slot : Fin 8) : numberOperand 3 (some (.number slot.val)) = some (fieldOfSlot slot) :=
  numberOperand_toNat (fieldOfSlot slot)

theorem kindOperand_of_legal {kind : AccessKind} (h : kind.legal = true) : kindOperand (some (.kind kind)) = some kind :=
  if_pos h

/-- Settles O42: each mnemonic selects its own row, and each operand reads back. -/
theorem assemblerLineRoundTrip : Obligations.AssemblerLineRoundTrip := by
  intro i hwf
  cases i with
  | translate vaddr kind regime | fill vaddr size kind regime probe =>
    simp [asmLine, instrOfLine, numberOperand_toNat, kindOperand_of_legal hwf, probeOperand]
  | slotRead slot | slotWrite slot data =>
    simp [asmLine, instrOfLine, numberOperand_toNat, numberOperand_slot]
  | _ => simp [asmLine, instrOfLine, numberOperand_toNat]

end Sys2Proof.Machine

/-! What TRANSLATE answers (40_translate.md). -/

namespace Sys2Proof.Machine

/-- Settles O3: the response is the only field a TRANSLATE of a legal kind writes. -/
theorem translateAnswersTheOutcome : Obligations.TranslateAnswersTheOutcome :=
  fun va _ regime s hkind => exec_translate_of_legal hkind va regime s

theorem State.translate_of_onHardware {s : State} (h : OnHardware s) (va : VAddr) (kind : AccessKind)
    (regime : Regime) : s.translate va kind regime = .matched (va.extractLsb' 0 32) fullPerms := by
  rw [State.translate, h, Translator.apply_identity]

theorem permsCode_fullPerms : permsCode fullPerms = 0b111#3 := rfl

/-- Settles O4: the identity translator's physical address is the low half of the virtual one, bit by bit. -/
theorem translateIsTheIdentityOnHardware : Obligations.TranslateIsTheIdentityOnHardware := by
  intro va kind regime s hkind hhw
  refine ⟨va.extractLsb' 0 32, fullPerms, ?_, fun j hj => ?_, permsCode_fullPerms⟩
  · rw [← State.translate_of_onHardware hhw va kind regime]
    exact exec_translate_of_legal hkind va regime s
  · simp [hj]

/-- Settles O5: no run changes the configuration, and the outcome depends on nothing else of the state. -/
theorem translateAnswersTheSameAfterAnyRun : Obligations.TranslateAnswersTheSameAfterAnyRun := by
  intro n s s' va kind regime hrun hkind
  have hcfg : s'.cfg = s.cfg := noRunChangesTheConfiguration n s s' hrun
  refine ⟨s.translate va kind regime, exec_translate_of_legal hkind va regime s, ?_⟩
  rw [← State.translate_congr hcfg va kind regime]
  exact exec_translate_of_legal hkind va regime s'

end Sys2Proof.Machine

/-! What FILL registers, answers and raises (41_tlb_fill.md), and that nothing faults on the hardware (R97, R140). -/

namespace Sys2Proof.Machine

/-- Settles O7: the transaction is `registrationFor`, and each of its fields is what R93 says. -/
theorem fillRegistersThePageOnMatch : Obligations.FillRegistersThePageOnMatch := by
  intro va size kind regime probe s pa perms hkind hmatch
  have hout : s.fillOutcome va kind regime = .matched pa perms := (fillOutcome_eq s va kind regime hkind).trans hmatch
  exact ⟨s.registrationFor va regime pa perms, exec_fill_of_matched hkind hout size probe,
    getLsbD_pageAlign s.cfg va, getLsbD_pageAlign s.cfg pa, permsCode_widenPerms perms, rfl, rfl⟩

/-- Settles O8: the identity translator matches with the low half of the address, so the registration is O7's. -/
theorem fillAlwaysSucceedsOnHardware : Obligations.FillAlwaysSucceedsOnHardware := by
  intro va size kind regime probe s hkind hhw
  have hmatch : Translator.apply s.cfg.translator va (if kind = .store then .store else .load) regime =
      .matched (va.extractLsb' 0 32) fullPerms := by
    rw [hhw, Translator.apply_identity]
  obtain ⟨m, hexec, hvpage, hppage, hperms, hregime, hgranule⟩ :=
    fillRegistersThePageOnMatch va size kind regime probe s _ _ hkind hmatch
  refine ⟨m, hexec, hvpage, fun j => ?_, hperms, hregime, hgranule⟩
  rw [hppage, BitVec.getLsbD_extractLsb', Nat.zero_add, Bool.decide_and, Bool.and_assoc]

/-- Settles O9: a failing FILL that probes writes its response and no other field. -/
theorem probeFailureAnswersFalse : Obligations.ProbeFailureAnswersFalse := by
  intro va size kind regime s k hkind hfail
  exact exec_fill_of_fail hkind ((fillOutcome_eq s va kind regime hkind).trans hfail) size true

/-- Settles O10: the descriptor's discriminant is `normaliseKind`, which is Store's bit (R68, R91). -/
theorem nonProbeFailureRaisesTheMmuFault : Obligations.NonProbeFailureRaisesTheMmuFault := by
  intro va size kind regime s k hkind hfail
  rw [← normaliseKind_eq kind hkind]
  exact exec_fill_of_fail hkind ((fillOutcome_eq s va kind regime hkind).trans hfail) size false

/-- Everything an operation that faults is: a FILL of a legal kind that does not probe and whose translation fails, with the
descriptor of R96. -/
theorem exec_fault {i : Instr} {s : State} {f : Fault} (h : exec i s = .fault f) :
    ∃ va size kind regime k, i = .fill va size kind regime false ∧ kind ≠ .reserved ∧
      s.fillOutcome va kind regime = .fail k ∧ f = .mmuFault (faultDescriptor va kind k) := by
  cases i with
  | translate va kind regime =>
    by_cases hkind : kind = .reserved
    · rw [hkind, (reservedKindIsRefused va 0 regime false s).1] at h
      cases h
    · rw [exec_translate_of_legal hkind] at h
      cases h
  | fill va size kind regime probe =>
    by_cases hkind : kind = .reserved
    · rw [hkind, (reservedKindIsRefused va size regime probe s).2] at h
      cases h
    · cases hout : s.fillOutcome va kind regime with
      | matched pa perms =>
        rw [exec_fill_of_matched hkind hout] at h
        cases h
      | fail k =>
        rw [exec_fill_of_fail hkind hout] at h
        cases probe with
        | true => cases h
        | false =>
          injection h with h
          exact ⟨va, size, kind, regime, k, rfl, hkind, hout, h.symm⟩
  | _ => cases h

theorem State.fillOutcome_of_onHardware {s : State} (h : OnHardware s) (va : VAddr) (kind : AccessKind)
    (regime : Regime) : s.fillOutcome va kind regime = .matched (va.extractLsb' 0 32) fullPerms :=
  State.translate_of_onHardware h va _ regime

theorem exec_ne_fault_of_onHardware {s : State} (hhw : OnHardware s) (i : Instr) (f : Fault) : exec i s ≠ .fault f := by
  intro h
  obtain ⟨va, _, kind, regime, _, -, -, hfail, -⟩ := exec_fault h
  rw [State.fillOutcome_of_onHardware hhw] at hfail
  cases hfail

/-- A step that faults runs an operation that does: neither idling nor a refused command is a fault (R66, R140). -/
theorem step_fault {s : State} {f : Fault} (h : step s = .fault f) :
    ∃ c rest i, s.commands = c :: rest ∧ decode c = .ok i ∧ exec i { s with commands := rest } = .fault f := by
  cases hc : s.commands with
  | nil =>
    rw [step_of_commands_eq_nil hc] at h
    cases h
  | cons c rest =>
    cases hdec : decode c with
    | error why =>
      rw [step_of_decode_error hc hdec] at h
      cases h
    | ok i =>
      rw [step_of_decode_ok hc hdec] at h
      exact ⟨c, rest, i, rfl, hdec, h⟩

/-- A run that ends in a fault reaches a state whose step faults. -/
theorem run_fault {n : Nat} {s : State} {f : Fault} (h : Sys2Proof.core.run n s = .fault f) :
    ∃ m u, Sys2Proof.core.run m s = .next u ∧ step u = .fault f := by
  induction n generalizing s with
  | zero =>
    rw [run_zero] at h
    cases h
  | succ n ih =>
    rw [run_succ] at h
    cases hst : step s with
    | next t =>
      rw [hst] at h
      obtain ⟨m, u, hrun, hu⟩ := ih h
      refine ⟨m + 1, u, ?_, hu⟩
      rw [run_succ, hst]
      exact hrun
    | fault g =>
      rw [hst] at h
      injection h with h
      exact ⟨0, s, run_zero s, h ▸ hst⟩
    | refused r =>
      rw [hst] at h
      cases h

/-- Settles O29: the faulting step's state has the configuration the run began with, under which no operation faults. -/
theorem noRunFaultsOnHardware : Obligations.NoRunFaultsOnHardware := by
  intro n s f hhw hrun
  obtain ⟨m, u, hreach, hstep⟩ := run_fault hrun
  obtain ⟨_, rest, i, -, -, hexec⟩ := step_fault hstep
  have hu : OnHardware u := (congrArg Config.translator (noRunChangesTheConfiguration m s u hreach)).trans hhw
  exact exec_ne_fault_of_onHardware (s := { u with commands := rest }) hu i f hexec

end Sys2Proof.Machine

/-! What the status bit cache's operations do to the PSW and to each other (42_psw.md). -/

namespace Sys2Proof.Machine

-- What each operation answers, in terms of the named updates or field by field.

theorem exec_pswRead (s : State) :
    exec .pswRead s = .next (s.respond (.psw (packPsw s.pswRaw s.usb))) := rfl

theorem exec_pswWrite (v : Word) (s : State) :
    exec (.pswWrite v) s =
      .next { s with pswRaw := v, usb := unpackPsw v, fp := fpCtxOf v, response := some .done } := rfl

theorem exec_slotWrite (k : Fin 8) (d : Word) (s : State) :
    exec (.slotWrite k d) s = .next ((s.setSlot k d).respond .done) := rfl

theorem exec_rawWrite (d : Word) (s : State) : exec (.rawWrite d) s = .next ((s.setRaw d).respond .done) := rfl

theorem exec_fpuSync (s : State) : exec .fpuSync s = .next (s.syncFp.respond .done) := rfl

theorem exec_fpctxRead (s : State) : exec .fpctxRead s = .next (s.respond (.fpCode (fpCtxCode s.fp))) := rfl

/-- A PSW_WRITE answers the same in two states that differ in nothing but what it overwrites (R111). -/
theorem exec_pswWrite_congr {s t : State} (hreg : t.registrations = s.registrations) (hcmds : t.commands = s.commands)
    (hcfg : t.cfg = s.cfg) (v : Word) : exec (.pswWrite v) t = exec (.pswWrite v) s := by
  rw [exec_pswWrite, exec_pswWrite, hreg, hcmds, hcfg]

-- The flag of a slot word (R23).

theorem slotFlag_eq_ite (i : Fin 8) (word : Word) :
    slotFlag i word = if i.val = 7 then word != 0#32 else word.getLsbD 31 := by
  by_cases h : i.val = 7
  · exact (if_pos (Fin.ext h)).trans (if_pos h).symm
  · rw [if_neg h, slotFlag_of_lt i (by omega)]

theorem toInt_neg_iff_slotFlag {i : Fin 8} (h : i.val < 7) (word : Word) : word.toInt < 0 ↔ slotFlag i word = true := by
  rw [slotFlag_of_lt i h, ← BitVec.msb_eq_getLsbD_last word, BitVec.msb_eq_toInt, decide_eq_true_iff]

-- The pack and the unpack (R110, R111).

/-- Every bit of a PSW word is one of the low 24 or the flag of a slot. -/
theorem pswBit_cases {j : Nat} (hj : j < 32) : j < 24 ∨ ∃ i : Fin 8, j = 24 + i.val := by
  by_cases hlow : j < 24
  · exact .inl hlow
  · exact .inr ⟨⟨j - 24, by omega⟩, by simp only; omega⟩

/-- The slot words that PSW_WRITE stores encode the flags it was given (R23, R112). -/
theorem slotFlag_unpackPsw (v : Word) (i : Fin 8) : slotFlag i (unpackPsw v)[i] = v.getLsbD (24 + i.val) := by
  rw [unpackPsw_slot, slotFlag_eq_ite]
  cases v.getLsbD (24 + i.val) <;> simp

theorem packPsw_unpackPsw (v : Word) : packPsw v (unpackPsw v) = v := by
  apply BitVec.eq_of_getLsbD_eq
  intro j hj
  obtain hlow | ⟨i, rfl⟩ := pswBit_cases hj
  · exact getLsbD_packPsw_low v _ j hlow
  · rw [getLsbD_packPsw_flag, slotFlag_unpackPsw]

/-- The high 8 bits of a packed PSW do not come from the stored word (R110). -/
theorem getLsbD_packPsw_high (raw raw' : Word) (usb : Vector Word 8) {j : Nat} (hj : 24 ≤ j) :
    (packPsw raw usb).getLsbD j = (packPsw raw' usb).getLsbD j := by
  by_cases hlt : j < 32
  · obtain hlow | ⟨i, rfl⟩ := pswBit_cases hlt
    · omega
    · rw [getLsbD_packPsw_flag, getLsbD_packPsw_flag]
  · rw [BitVec.getLsbD_of_ge _ _ (by omega), BitVec.getLsbD_of_ge _ _ (by omega)]

/-- A slot reaches no bit of the packed PSW but its own (R110). -/
theorem getLsbD_packPsw_of_ne (raw : Word) {usb usb' : Vector Word 8} {k : Fin 8}
    (husb : ∀ i : Fin 8, i ≠ k → usb'[i] = usb[i]) {j : Nat} (hj : j < 32) (hne : j ≠ 24 + k.val) :
    (packPsw raw usb').getLsbD j = (packPsw raw usb).getLsbD j := by
  obtain hlow | ⟨i, rfl⟩ := pswBit_cases hj
  · rw [getLsbD_packPsw_low _ _ _ hlow, getLsbD_packPsw_low _ _ _ hlow]
  · have hik : i ≠ k := fun h => hne (by rw [h])
    rw [getLsbD_packPsw_flag, getLsbD_packPsw_flag, husb i hik]

/-- Toggling the PSW bit of slot `k` toggles the flag of slot `k` and no other. -/
theorem getLsbD_toggle_pswBit (v : Word) (i k : Fin 8) :
    (v ^^^ (1#32 <<< (24 + k.val))).getLsbD (24 + i.val) = (v.getLsbD (24 + i.val) ^^ decide (i = k)) := by
  have htoggle : (1#32 <<< (24 + k.val)).getLsbD (24 + i.val) = decide (i = k) := by
    revert i k
    decide
  rw [BitVec.getLsbD_xor, htoggle]

theorem unpackPsw_slot_eq_iff {v w : Word} {i : Fin 8} :
    (unpackPsw v)[i] = (unpackPsw w)[i] ↔ v.getLsbD (24 + i.val) = w.getLsbD (24 + i.val) := by
  rw [unpackPsw_slot, unpackPsw_slot]
  cases v.getLsbD (24 + i.val) <;> cases w.getLsbD (24 + i.val) <;> decide

theorem State.setSlot_usb_self (s : State) (k : Fin 8) (d : Word) : (s.setSlot k d).usb[k] = d :=
  Vector.getElem_set_self k.isLt

/-- Every slot after a SLOT_WRITE (R114). -/
theorem State.setSlot_usb_getElem (s : State) (k : Fin 8) (d : Word) (j : Fin 8) :
    (s.setSlot k d).usb[j] = if j = k then d else s.usb[j] := by
  by_cases h : j = k
  · rw [if_pos h, h, s.setSlot_usb_self]
  · rw [if_neg h, s.setSlot_usb_of_ne d h]

/-- The PSW bit of a slot just written is the flag its word encodes (R110, R114). -/
theorem getLsbD_packPsw_setSlot (s : State) (k : Fin 8) (d : Word) :
    (packPsw s.pswRaw (s.setSlot k d).usb).getLsbD (24 + k.val) = slotFlag k d := by
  rw [getLsbD_packPsw_flag, s.setSlot_usb_self]

theorem shiftRight_and_one_eq_one_iff (v : Word) (n : Nat) : (v >>> n) &&& 1#32 = 1#32 ↔ v.getLsbD n = true := by
  rw [BitVec.and_one_eq_setWidth_ofBool_getLsbD, BitVec.getLsbD_ushiftRight, Nat.add_zero]
  cases v.getLsbD n <;> decide

/-- Settles O14: bit by bit from the pack, with the flag of each slot read as R23 says. -/
theorem pswReadPacksTheSlots : Obligations.PswReadPacksTheSlots := by
  intro s
  refine ⟨packPsw s.pswRaw s.usb, exec_pswRead s, getLsbD_packPsw_low _ _, fun i hi => ?_,
    getLsbD_packPsw_flag s.pswRaw s.usb 7⟩
  rw [getLsbD_packPsw_flag, slotFlag_of_lt i hi]

/-- Settles O15: the slots are `unpackPsw v`, and the context is derived from the stored word, which is then `v`. -/
theorem pswWriteUnpacksAndSynchronises : Obligations.PswWriteUnpacksAndSynchronises :=
  fun v s => ⟨unpackPsw v, (fpCtxOf v).rm, exec_pswWrite v s, unpackPsw_slot v, fpCtxOf_rm_code v⟩

/-- PSW_READ answers the value that the PSW_WRITE before it was given (R116). -/
theorem exec_pswRead_of_pswWrite {v : Word} {s t : State} (h : exec (.pswWrite v) s = .next t) :
    exec .pswRead t = .next (t.respond (.psw v)) := by
  injection h with h
  have hpack : packPsw t.pswRaw t.usb = v := h ▸ packPsw_unpackPsw v
  rw [exec_pswRead, hpack]

/-- Settles O16: the pack undoes the unpack. -/
theorem pswRoundTrip : Obligations.PswRoundTrip :=
  fun v s => ⟨_, exec_pswWrite v s, exec_pswRead_of_pswWrite (exec_pswWrite v s)⟩

/-- Settles O17: a slot after PSW_WRITE is decided by its bit of the value, and the toggle reaches bit `24 + k` alone. -/
theorem pswBitsAreIndependent : Obligations.PswBitsAreIndependent := by
  intro v k s
  refine ⟨_, _, exec_pswWrite v s, exec_pswWrite _ s, exec_pswRead_of_pswWrite (exec_pswWrite _ s), ?_, fun i hi => ?_⟩
  · rw [Ne, unpackPsw_slot_eq_iff, getLsbD_toggle_pswBit]
    simp
  · rw [unpackPsw_slot_eq_iff, getLsbD_toggle_pswBit]
    simp [hi]

/-- Settles O18: both readings of a slot are its flag, which is the bit written. -/
theorem slotSignsFollowTheWrittenPsw : Obligations.SlotSignsFollowTheWrittenPsw := by
  intro v s
  refine ⟨_, exec_pswWrite v s, fun i hi => ?_, ?_⟩
  · rw [toInt_neg_iff_slotFlag hi, slotFlag_unpackPsw, shiftRight_and_one_eq_one_iff]
  · rw [← bne_iff_ne]
    exact Bool.eq_iff_iff.mp (slotFlag_unpackPsw v 7)

/-- Settles O21: the pack reads the slot at one bit, and PSW_WRITE overwrites all the slots. -/
theorem slotWriteShowsAsOneBitOfThePsw : Obligations.SlotWriteShowsAsOneBitOfThePsw := by
  intro k d v s
  exact ⟨_, _, _, _, _, _, rfl, exec_pswRead s, exec_slotWrite k d s, s.setSlot_usb_getElem k d, exec_pswRead _,
    fun j hj hne => getLsbD_packPsw_of_ne s.pswRaw (fun i => s.setSlot_usb_of_ne d) hj hne,
    (getLsbD_packPsw_setSlot s k d).trans (slotFlag_eq_ite k d), exec_pswWrite_congr rfl rfl rfl v, exec_pswWrite v s, rfl⟩

/-- Settles O22: the pack takes its low 24 bits alone from the stored word, and only a synchronisation takes the mode from it. -/
theorem rawWriteReachesTheLowBitsAtOnceAndTheModeAtSync :
    Obligations.RawWriteReachesTheLowBitsAtOnceAndTheModeAtSync := by
  intro d v s
  exact ⟨_, _, _, _, _, rfl, exec_rawWrite d s, exec_pswRead s, exec_pswRead _, getLsbD_packPsw_low d s.usb,
    fun _ => getLsbD_packPsw_high d s.pswRaw s.usb, exec_fpctxRead s, exec_fpctxRead _, exec_fpuSync _,
    fpCtxOf_rm_code d, exec_pswWrite_congr rfl rfl rfl v⟩

/-- Settles O19: the response is the only field a SLOT_READ writes. -/
theorem slotReadAnswersTheStoredWord : Obligations.SlotReadAnswersTheStoredWord :=
  fun _ _ => rfl

/-- Settles O20: the slot reads back as written, and every other one as before. -/
theorem slotWriteChangesItsSlotAlone : Obligations.SlotWriteChangesItsSlotAlone :=
  fun k d s => ⟨(s.setSlot k d).usb, exec_slotWrite k d s, s.setSlot_usb_self k d,
    fun _ => s.setSlot_usb_of_ne d⟩

end Sys2Proof.Machine

/-! The FP context that a synchronisation derives and the code it reads back as (43_fpu_sync.md), and the invariant that every
step keeps. -/

namespace Sys2Proof.Machine

-- The invariant, element by element: who writes the FP context, and what a FILL registers.

theorem policyFlagsSet_fpCtxOf (raw : Word) : PolicyFlagsSet (fpCtxOf raw) := fpCtxOf_flags raw

/-- An operation that completes keeps the FP context or derives it anew from a stored word (R26, R130). -/
theorem exec_next_fp {i : Instr} {s t : State} (h : exec i s = .next t) :
    t.fp = s.fp ∨ ∃ raw, t.fp = fpCtxOf raw := by
  obtain ⟨-, -, hfp, -⟩ := eachElementHasItsWriters i s t h
  by_cases hkept : t.fp = s.fp
  · exact .inl hkept
  · obtain rfl | ⟨d, rfl⟩ := hfp hkept
    · injection h with h
      exact .inr ⟨s.pswRaw, h ▸ rfl⟩
    · injection h with h
      exact .inr ⟨d, h ▸ rfl⟩

/-- Alignment commutes with taking the low half of an address (R43). -/
theorem pageAlign_extractLsb' (c : Config) (va : VAddr) :
    pageAlign c (va.extractLsb' 0 32) = (pageAlign c va).setWidth 32 := by
  apply BitVec.eq_of_getLsbD_eq
  intro j hj
  rw [getLsbD_pageAlign, BitVec.getLsbD_setWidth, getLsbD_pageAlign, BitVec.getLsbD_extractLsb']
  simp [hj]

theorem registrationFor_sound (s : State) (va : VAddr) (regime : Regime) (pa : PAddr) (perms : Perms) :
    RegistrationSound s.cfg (s.registrationFor va regime pa perms) := by
  refine ⟨fun j hj => ?_, rfl, rfl⟩
  have hbit : ∀ {w : Nat} (a : BitVec w), (pageAlign s.cfg a).getLsbD j = false := fun a => by
    rw [getLsbD_pageAlign, decide_eq_false (Nat.not_le_of_lt hj), Bool.false_and]
  exact ⟨hbit va, hbit pa⟩

/-- What the identity translator answers is registered as an identity mapping (R80, R93). -/
theorem registrationFor_identity (s : State) (va : VAddr) (regime : Regime) :
    RegistrationIdentity (s.registrationFor va regime (va.extractLsb' 0 32) fullPerms) :=
  ⟨pageAlign_extractLsb' s.cfg va, rfl⟩

/-- An operation that completes adds no registration but a sound one, on the hardware an identity mapping. -/
theorem exec_next_registers_sound {i : Instr} {s t : State} (h : exec i s = .next t) :
    t.registrations = s.registrations ∨
      ∃ m, t.registrations = s.registrations ++ [m] ∧ RegistrationSound s.cfg m ∧
        (OnHardware s → RegistrationIdentity m) := by
  obtain hkept | ⟨-, va, size, kind, regime, probe, -, rfl⟩ := exec_next_registrations h
  · exact .inl hkept
  · obtain ⟨-, ⟨pa, perms, hout, rfl⟩ | ⟨k, -, -, rfl⟩⟩ := execFill_next h
    · refine .inr ⟨_, rfl, registrationFor_sound s va regime pa perms, fun hhw => ?_⟩
      rw [State.fillOutcome_of_onHardware hhw] at hout
      obtain ⟨rfl, rfl⟩ := TransOutcome.matched.inj hout
      exact registrationFor_identity s va regime
    · exact .inl rfl

theorem MachineInv.of_exec_next {i : Instr} {s t : State} (hs : MachineInv s) (h : exec i s = .next t) :
    MachineInv t := by
  obtain ⟨hflags, hsound, hident⟩ := hs
  have hcfg : t.cfg = s.cfg := (exec_next_cfg_commands h).1
  refine ⟨?_, ?_⟩
  · obtain hfp | ⟨raw, hfp⟩ := exec_next_fp h
    · exact hfp ▸ hflags
    · exact hfp ▸ policyFlagsSet_fpCtxOf raw
  · rw [OnHardware, hcfg]
    obtain hreg | ⟨m, hreg, hmsound, hmident⟩ := exec_next_registers_sound h
    · rw [hreg]
      exact ⟨hsound, hident⟩
    · simp only [hreg, List.forall_mem_append, List.forall_mem_singleton]
      exact ⟨⟨hsound, hmsound⟩, fun hhw => ⟨hident hhw, hmident hhw⟩⟩

/-- Settles O32: taking a command touches nothing of the invariant, and the operation keeps it. -/
theorem everyStepKeepsTheInvariant : Obligations.EveryStepKeepsTheInvariant := by
  intro s s' hs h
  obtain ⟨-, rfl⟩ | ⟨c, rest, i, -, -, hexec⟩ := step_next h
  · exact hs
  · exact MachineInv.of_exec_next (s := { s with commands := rest }) hs hexec

-- The derived context and its code.

theorem roundingOfCode_code (rm : RoundingMode) : roundingOfCode (roundingCode rm) = rm := by
  cases rm <;> rfl

/-- The mode is decided by the bits that code it (R27). -/
theorem fpCtxOf_rm_eq {raw : Word} (rm : RoundingMode) (h : raw.extractLsb' 24 2 = roundingCode rm) :
    (fpCtxOf raw).rm = rm := by
  rw [fpCtxOf, h, roundingOfCode_code]

/-- Settles O23: the context is `fpCtxOf` of the stored word, which a second FPU_SYNC finds unchanged. -/
theorem fpuSyncDerivesTheContextFromTheStoredWord : Obligations.FpuSyncDerivesTheContextFromTheStoredWord :=
  fun s => ⟨(fpCtxOf s.pswRaw).rm, s.syncFp.respond .done, rfl, exec_fpuSync s, fpCtxOf_rm_code s.pswRaw,
    fpCtxOf_rm_eq .nearestEven, fpCtxOf_rm_eq .up, fpCtxOf_rm_eq .down, fpCtxOf_rm_eq .towardZero, exec_fpuSync _⟩

/-- The code holds the mode in bits 1:0 and the flags in bits 2, 3 and 4 (R72). -/
theorem fpCtxCode_fields (f : FpCtx) :
    (fpCtxCode f).extractLsb' 0 2 = roundingCode f.rm ∧ (fpCtxCode f).getLsbD 2 = f.fiz ∧
      (fpCtxCode f).getLsbD 3 = f.ftz ∧ (fpCtxCode f).getLsbD 4 = f.dn := by
  obtain ⟨rm, fiz, ftz, dn⟩ := f
  cases rm <;> revert fiz ftz dn <;> decide

/-- With the policy flags set the code is `0x1C | rm_code` (R132). -/
theorem fpCtxCode_of_policyFlagsSet {f : FpCtx} (h : PolicyFlagsSet f) :
    fpCtxCode f = 0x1C#5 ||| (roundingCode f.rm).setWidth 5 := by
  obtain ⟨rm, fiz, ftz, dn⟩ := f
  obtain ⟨rfl, rfl, rfl⟩ := h
  cases rm <;> rfl

theorem fpCtxCode_fpCtxOf (raw : Word) :
    fpCtxCode (fpCtxOf raw) = 0x1C#5 ||| (raw.extractLsb' 24 2).setWidth 5 := by
  rw [fpCtxCode_of_policyFlagsSet (policyFlagsSet_fpCtxOf raw), fpCtxOf_rm_code]

/-- FPCTX_READ answers `0x1C | rm_code` where the context is the one derived from `raw` (R132). -/
theorem exec_fpctxRead_of_fpCtxOf {t : State} {raw : Word} (h : t.fp = fpCtxOf raw) :
    exec .fpctxRead t = .next (t.respond (.fpCode (0x1C#5 ||| (raw.extractLsb' 24 2).setWidth 5))) := by
  rw [exec_fpctxRead, h, fpCtxCode_fpCtxOf]

/-- Settles O24: PSW_WRITE and FPU_SYNC both leave the context derived from the stored word. -/
theorem fpctxReadAnswersTheCode : Obligations.FpctxReadAnswersTheCode := by
  intro v s
  obtain ⟨hrm, hfiz, hftz, hdn⟩ := fpCtxCode_fields s.fp
  exact ⟨fpCtxCode s.fp, _, _, exec_fpctxRead s, hrm, hfiz, hftz, hdn, exec_pswWrite v s, exec_fpctxRead_of_fpCtxOf rfl,
    exec_fpuSync s, exec_fpctxRead_of_fpCtxOf rfl⟩

end Sys2Proof.Machine

/-! The block's one exception (60_exceptions.md). -/

namespace Sys2Proof.Machine

/-- The failure kinds with the codes the fault reports (R69). -/
theorem failCode_toInt_cases (k : FailKind) :
    k = .badAddress ∧ (failCode k).toInt = -1 ∨ k = .noMatch ∧ (failCode k).toInt = -2 ∨
      k = .invalid ∧ (failCode k).toInt = -3 ∨ k = .dirty ∧ (failCode k).toInt = -4 := by
  cases k <;> decide

theorem step_ne_fault_of_decode_error {s : State} {c : Command} {rest : List Command} {why : IllegalCommand}
    (h : s.commands = c :: rest) (hdec : decode c = .error why) (f : Fault) : step s ≠ .fault f := by
  rw [step_of_decode_error h hdec]
  exact nofun

/-- Settles O11: an operation that faults is a FILL with the descriptor of R96, whose discriminant is Store's bit and whose
failure kind is one of the four. -/
theorem onlyAFailingFillFaults : Obligations.OnlyAFailingFillFaults := by
  refine ⟨fun i s f h => ?_, fun _ _ _ _ f hc hdec => step_ne_fault_of_decode_error hc hdec f,
    fun i _ f hhw => exec_ne_fault_of_onHardware hhw i f⟩
  obtain ⟨va, size, kind, regime, k, hfill, hkind, hfail, hfault⟩ := exec_fault h
  refine ⟨va, size, kind, regime, k, hfill, hkind, (fillOutcome_eq s va kind regime hkind).symm.trans hfail, ?_,
    failCode_toInt_cases k⟩
  rw [← normaliseKind_eq kind hkind]
  exact hfault

end Sys2Proof.Machine

/-! Reset (70_reset_and_hazards.md R160, R161) and the hazards that follow it: what a SLOT_WRITE does not reach (R166), and that
on the hardware every operation and every legal program completes (R162). -/

namespace Sys2Proof.Machine

-- The state after reset, in the terms of PSW_WRITE (R111).

theorem resetSlot_of_lt (c : Config) {i : Nat} (h : i < 7) :
    resetSlot c i = if c.pswReset.getLsbD (24 + i) then 0x80000000#32 else 0#32 :=
  if_neg (Nat.ne_of_lt h)

theorem resetSlot_seven (c : Config) : resetSlot c 7 = c.pswReset &&& 0x80000000#32 := if_pos rfl

theorem resetWith_usb_getElem (c : Config) (i : Fin 8) : (State.resetWith c).usb[i] = resetSlot c i.val := by
  fin_cases i <;> rfl

/-- The slots after reset are those that PSW_WRITE of PSW_RESET unpacks (R160, R111). -/
theorem resetWith_usb (c : Config) : (State.resetWith c).usb = unpackPsw c.pswReset := by
  apply Vector.ext
  intro i hi
  refine (resetWith_usb_getElem c ⟨i, hi⟩).trans ?_
  by_cases h7 : i = 7
  · subst h7
    exact resetSlot_seven c
  · have hlt : i < 7 := by omega
    exact (resetSlot_of_lt c hlt).trans (unpackPsw_slot c.pswReset ⟨i, hi⟩).symm

/-- The rounding-mode field of a PSW word is its bits 25 and 24 (R27). -/
theorem extractLsb'_modeField (v : Word) :
    v.extractLsb' 24 2 = BitVec.ofBool (v.getLsbD 25) ++ BitVec.ofBool (v.getLsbD 24) := by
  apply BitVec.eq_of_getLsbD_eq
  intro j hj
  rw [BitVec.getLsbD_extractLsb', decide_eq_true hj, Bool.true_and, BitVec.getLsbD_append]
  interval_cases j <;> simp

/-- The mode after reset is coded by bits 25 and 24 of PSW_RESET (R160). -/
theorem roundingCode_resetRoundingMode (c : Config) :
    roundingCode (resetRoundingMode c) = c.pswReset.extractLsb' 24 2 := by
  rw [extractLsb'_modeField, resetRoundingMode]
  cases c.pswReset.getLsbD 25 <;> cases c.pswReset.getLsbD 24 <;> rfl

/-- The FP context after reset is the one that a synchronisation derives from PSW_RESET (R160, R130). -/
theorem resetWith_fp (c : Config) : (State.resetWith c).fp = fpCtxOf c.pswReset := by
  rw [State.resetWith, fpCtxOf, ← roundingCode_resetRoundingMode, roundingOfCode_code]

/-- The slots after reset hold PSW_RESET (R24). -/
theorem slotsHold_resetWith (c : Config) : SlotsHold c.pswReset (State.resetWith c) := by
  intro i
  rw [resetWith_usb]
  exact slotsHold_of_pswWrite (exec_pswWrite c.pswReset (State.resetWith c)) i

/-- The machine invariant at reset, for every configuration. -/
theorem machineInv_resetWith (c : Config) : MachineInv (State.resetWith c) :=
  ⟨⟨rfl, rfl, rfl⟩, List.forall_mem_nil _, fun _ => List.forall_mem_nil _⟩

-- The high byte of a PSW word.

theorem getLsbD_of_highByte_eq_zero {v : Word} (h : v.extractLsb' 24 8 = 0#8) (i : Fin 8) :
    v.getLsbD (24 + i.val) = false := by
  have hbit := congrArg (BitVec.getLsbD · i.val) h
  simpa using hbit

/-- The mode that a synchronisation derives from a packed PSW is coded by the signs of slots 1 and 0 (R166). -/
theorem fpCtxOf_packPsw_rm_code (raw : Word) (usb : Vector Word 8) :
    roundingCode (fpCtxOf (packPsw raw usb)).rm =
      BitVec.ofBool (usb[1].getLsbD 31) ++ BitVec.ofBool (usb[0].getLsbD 31) := by
  have hflag : ∀ i : Fin 8, i.val < 7 → (packPsw raw usb).getLsbD (24 + i.val) = usb[i].getLsbD 31 := fun i hi =>
    (getLsbD_packPsw_flag raw usb i).trans (slotFlag_of_lt i hi _)
  have h25 : (packPsw raw usb).getLsbD 25 = usb[1].getLsbD 31 := hflag 1 (by decide)
  have h24 : (packPsw raw usb).getLsbD 24 = usb[0].getLsbD 31 := hflag 0 (by decide)
  rw [fpCtxOf_rm_code, extractLsb'_modeField, h25, h24]

-- Nothing on the hardware stops a well-formed operation, nor a step with no illegal command.

theorem exec_completes_onHardware {i : Instr} {s : State} (hwf : i.wellFormed = true) (hhw : OnHardware s) :
    ∃ t, exec i s = .next t := by
  cases i with
  | translate va kind regime =>
    have hkind : kind ≠ .reserved := kind.legal_iff.mp hwf
    exact ⟨_, exec_translate_of_legal hkind va regime s⟩
  | fill va size kind regime probe =>
    have hkind : kind ≠ .reserved := kind.legal_iff.mp hwf
    exact ⟨_, exec_fill_of_matched hkind (State.fillOutcome_of_onHardware hhw va kind regime) size probe⟩
  | _ => exact ⟨_, rfl⟩

theorem step_completes_onHardware {s : State} (hhw : OnHardware s) (hlegal : ∀ c ∈ s.commands, ∃ i, decode c = .ok i) :
    ∃ t, step s = .next t := by
  cases hc : s.commands with
  | nil => exact ⟨s, step_of_commands_eq_nil hc⟩
  | cons c rest =>
    obtain ⟨i, hdec⟩ := hlegal c (hc ▸ List.mem_cons_self)
    obtain ⟨-, hwf, -⟩ := decode_ok_cases hdec
    rw [step_of_decode_ok hc hdec]
    exact exec_completes_onHardware hwf hhw

/-- A run goes on from the state that its first step answers. -/
theorem run_succ_of_step_next {n : Nat} {s u : State} (h : step s = .next u) :
    Sys2Proof.core.run (n + 1) s = Sys2Proof.core.run n u := by
  rw [run_succ, h]

/-- Settles O1: slots and context after reset are those that PSW_WRITE derives from PSW_RESET, so each row of R160's table is a
fact about `unpackPsw` and `fpCtxOf`. -/
theorem resetHasTheEffectOfPswWrite : Obligations.ResetHasTheEffectOfPswWrite := by
  intro c s
  refine ⟨⟨_, exec_pswWrite c.pswReset s, rfl, (resetWith_usb c).symm, (resetWith_fp c).symm⟩, rfl, resetSlot_seven c,
    fun i hi => (resetWith_usb_getElem c i).trans (resetSlot_of_lt c hi), ?_, ?_, slotsHold_resetWith c,
    fun hzero => ⟨fun i => ?_, ?_⟩⟩
  · rw [resetWith_fp, fpCtxOf_rm_code]
  · rw [resetWith_fp]
    exact policyFlagsSet_fpCtxOf c.pswReset
  · rw [resetWith_usb, unpackPsw_slot, getLsbD_of_highByte_eq_zero hzero i]
    rfl
  · have h25 : c.pswReset.getLsbD 25 = false := getLsbD_of_highByte_eq_zero hzero 1
    have h24 : c.pswReset.getLsbD 24 = false := getLsbD_of_highByte_eq_zero hzero 0
    rw [resetWith_fp]
    apply fpCtxOf_rm_eq
    rw [extractLsb'_modeField, h25, h24]
    rfl

/-- Settles O2: with nothing registered, the policy flags are all that the invariant asks. -/
theorem invariantHoldsAtReset : Obligations.InvariantHoldsAtReset :=
  ⟨fun c => ⟨rfl, machineInv_resetWith c⟩, machineInv_resetWith Config.reference⟩

/-- Settles O25: a synchronisation reads the stored word, which SLOT_WRITE leaves, and only PSW_WRITE of the packed value brings
the slots' flags into it. -/
theorem slotWritesNeverReachTheFpContext : Obligations.SlotWritesNeverReachTheFpContext := by
  intro k d s
  exact ⟨_, _, _, _, _, exec_slotWrite k d s, rfl, rfl, exec_fpuSync _, exec_fpuSync s, rfl, exec_pswRead _,
    exec_pswWrite _ _, fpCtxOf_packPsw_rm_code s.pswRaw (s.setSlot k d).usb⟩

/-- Settles O27: the identity translator always matches, so FILL never fails, and no other operation can. -/
theorem everyOperationCompletesOnHardware : Obligations.EveryOperationCompletesOnHardware :=
  fun _ _ => exec_completes_onHardware

/-- Settles O28, by induction on the length of the run: a step completes, and leaves a hardware state with the commands after
the one it took. -/
theorem legalProgramsRunToTheirEndOnHardware : Obligations.LegalProgramsRunToTheirEndOnHardware := by
  intro n
  induction n with
  | zero => exact fun s _ _ => ⟨s, run_zero s, rfl⟩
  | succ n ih =>
    intro s hhw hlegal
    obtain ⟨u, hstep⟩ := step_completes_onHardware hhw hlegal
    have hcmds : u.commands = s.commands.tail := step_next_commands hstep
    have hu : OnHardware u := (congrArg Config.translator (step_next_cfg hstep)).trans hhw
    have hulegal : ∀ c ∈ u.commands, ∃ i, decode c = .ok i := fun c hc =>
      hlegal c (List.mem_of_mem_tail (hcmds ▸ hc))
    obtain ⟨s', hrun, hleft⟩ := ih u hu hulegal
    refine ⟨s', (run_succ_of_step_next hstep).trans hrun, ?_⟩
    rw [hleft, hcmds, List.drop_tail]

end Sys2Proof.Machine
